-- ==== Sys2Proof/Word.lean ====
section
/-! DEFINITION. The widths of the engine: bytes, 16-bit words, register numbers (00_scope.md R6, R7). -/

namespace Sys2Proof

/-- `XLEN` = 8 bits: a general register, a timer, a byte of memory (R6). -/
abbrev Byte := BitVec 8

/-- 16 bits: an instruction word, `pc`, `index`, `ir`, a call-stack slot (R6). -/
abbrev Word := BitVec 16

/-- A register number 0x0..0xF: it only ever comes from a 4-bit field (R23). -/
abbrev RegNum := Fin 16

/-- A key number 0x0..0xF that has been found to be in range (R6 `NKEYS`, R30). -/
abbrev KeyNum := Fin 16

end Sys2Proof
end

