-- ==== Sys2Proof/Machine/Fields.lean ====
section
/-! DEFINITION. The fields of an instruction word, as slices (00_scope.md R7, R8; 30_encoding.md R74), the packing of
fields into a word, and the byte order of a word in memory (20_memory.md R52). -/

namespace Sys2Proof

/-- `CAT = w[15:12]`. -/
def catOf (w : Word) : BitVec 4 := w.extractLsb' 12 4

/-- `X = w[11:8]`, a register number. -/
def xOf (w : Word) : RegNum := (w.extractLsb' 8 4).toFin

/-- `Y = w[7:4]`, a register number. -/
def yOf (w : Word) : RegNum := (w.extractLsb' 4 4).toFin

/-- `N = w[3:0]`. -/
def nOf (w : Word) : BitVec 4 := w.extractLsb' 0 4

/-- `KK = w[7:0]`. -/
def kkOf (w : Word) : Byte := w.extractLsb' 0 8

/-- `NNN = w[11:0]`. -/
def nnnOf (w : Word) : BitVec 12 := w.extractLsb' 0 12

/-- `w[11:4]`, the two middle nibbles, which format `Z` ignores (R74, R77). -/
def midOf (w : Word) : BitVec 8 := w.extractLsb' 4 8

/-- Format `A`: `CAT`, `NNN`. -/
def packA (c : BitVec 4) (nnn : BitVec 12) : Word := c ++ nnn

/-- Formats `I` and `K`: `CAT`, `X`, `KK`. -/
def packI (c : BitVec 4) (x : RegNum) (kk : BitVec 8) : Word := c ++ (BitVec.ofFin (w := 4) x ++ kk : BitVec 12)

/-- Formats `R`, `R8` and `D`: `CAT`, `X`, `Y`, `N`. -/
def packR (c : BitVec 4) (x y : RegNum) (n : BitVec 4) : Word :=
  c ++ (BitVec.ofFin (w := 4) x ++ (BitVec.ofFin (w := 4) y ++ n : BitVec 8) : BitVec 12)

/-- Format `Z`: `CAT = 0`, two ignored nibbles, `N`. -/
def packZ (mid : BitVec 8) (n : BitVec 4) : Word := (0#4 ++ (mid ++ n : BitVec 12))

/-- The big-endian word of two bytes: the byte at the lower address is `w[15:8]` (R52). -/
def bigEndian (hi lo : Byte) : Word := hi ++ lo

/-- `w[15:8]`, the byte stored at the lower address (R52). -/
def highByte (w : Word) : Byte := w.extractLsb' 8 8

/-- `w[7:0]`, the byte stored at the higher address (R52). -/
def lowByte (w : Word) : Byte := w.extractLsb' 0 8

end Sys2Proof
end

