-- ==== Sys2Proof/Syntax.lean ====
section
/-! DEFINITION. The instructions: one constructor for each of the 35 rows of the opcode map (30_encoding.md R76), in the
map's order. Every bit of the word that is not fixed by the row is an operand, the bits the decoder or the meaning ignores
among them (R77), so that an instruction is written back as exactly the word it was read from. Assumption log 12. -/

namespace Sys2Proof

/-- The 34 defined operations and the no-op (R76). `x`, `y` are register numbers, `kk`, `nnn`, `n` the literals of R8;
`ignored` holds bits that no meaning looks at. -/
inductive Instr where
  | clearDisplay (ignored : BitVec 8)
  | ret (ignored : BitVec 8)
  | jump (nnn : BitVec 12)
  | call (nnn : BitVec 12)
  | skipEqImm (x : RegNum) (kk : Byte)
  | skipNeImm (x : RegNum) (kk : Byte)
  | skipEqReg (x y : RegNum) (ignored : BitVec 4)
  | loadImm (x : RegNum) (kk : Byte)
  | addImm (x : RegNum) (kk : Byte)
  | copy (x y : RegNum)
  | orReg (x y : RegNum)
  | andReg (x y : RegNum)
  | xorReg (x y : RegNum)
  | addReg (x y : RegNum)
  | subReg (x y : RegNum)
  | shiftRight (x y : RegNum)
  | subRegRev (x y : RegNum)
  | shiftLeft (x y : RegNum)
  | skipNeReg (x y : RegNum) (ignored : BitVec 4)
  | setIndex (nnn : BitVec 12)
  | jumpOffset (nnn : BitVec 12)
  | randomAnd (x : RegNum) (kk : Byte)
  | draw (x y : RegNum) (n : BitVec 4)
  | skipIfKey (x : RegNum)
  | skipIfNotKey (x : RegNum)
  | getDelay (x : RegNum)
  | waitKey (x : RegNum)
  | setDelay (x : RegNum)
  | setSound (x : RegNum)
  | addIndex (x : RegNum)
  | fontChar (x : RegNum)
  | storeBcd (x : RegNum)
  | storeRegs (x : RegNum)
  | loadRegs (x : RegNum)
  | undefinedNop (w : Word)
deriving DecidableEq, Repr

/-- The mnemonic of an instruction's row, as the opcode table spells it (R76, R82). -/
def Instr.mnemonic : Instr → String
  | .clearDisplay _ => "clear-display"
  | .ret _ => "return"
  | .jump _ => "jump"
  | .call _ => "call"
  | .skipEqImm _ _ => "skip-eq-imm"
  | .skipNeImm _ _ => "skip-ne-imm"
  | .skipEqReg _ _ _ => "skip-eq-reg"
  | .loadImm _ _ => "load-imm"
  | .addImm _ _ => "add-imm"
  | .copy _ _ => "copy"
  | .orReg _ _ => "or"
  | .andReg _ _ => "and"
  | .xorReg _ _ => "xor"
  | .addReg _ _ => "add-reg"
  | .subReg _ _ => "sub-reg"
  | .shiftRight _ _ => "shift-right"
  | .subRegRev _ _ => "sub-reg-rev"
  | .shiftLeft _ _ => "shift-left"
  | .skipNeReg _ _ _ => "skip-ne-reg"
  | .setIndex _ => "set-index"
  | .jumpOffset _ => "jump-offset"
  | .randomAnd _ _ => "random-and"
  | .draw _ _ _ => "draw"
  | .skipIfKey _ => "skip-if-key"
  | .skipIfNotKey _ => "skip-if-not-key"
  | .getDelay _ => "get-delay"
  | .waitKey _ => "wait-key"
  | .setDelay _ => "set-delay"
  | .setSound _ => "set-sound"
  | .addIndex _ => "add-index"
  | .fontChar _ => "font-char"
  | .storeBcd _ => "store-bcd"
  | .storeRegs _ => "store-regs"
  | .loadRegs _ => "load-regs"
  | .undefinedNop _ => "undefined-nop"

end Sys2Proof
end

