-- ==== Sys2Proof/Decode.lean ====
section
/-! DEFINITION. The decoder, a total function from the 65536 words (30_encoding.md R73, R75, R77, R78), the encoder
written from the encodings of R74 and R76, and the opcode map of R76 as data. -/

namespace Sys2Proof

/-- Category 0x0 disambiguates on the low nibble; the two middle nibbles are ignored (R75, R77 (a)). -/
def decodeCategory0 (w : Word) : Instr :=
  match nOf w with
  | 0x0#4 => .clearDisplay (midOf w)
  | 0xE#4 => .ret (midOf w)
  | _ => .undefinedNop w

/-- Category 0x8 disambiguates on the low nibble (R75). -/
def decodeCategory8 (w : Word) : Instr :=
  match nOf w with
  | 0x0#4 => .copy (xOf w) (yOf w)
  | 0x1#4 => .orReg (xOf w) (yOf w)
  | 0x2#4 => .andReg (xOf w) (yOf w)
  | 0x3#4 => .xorReg (xOf w) (yOf w)
  | 0x4#4 => .addReg (xOf w) (yOf w)
  | 0x5#4 => .subReg (xOf w) (yOf w)
  | 0x6#4 => .shiftRight (xOf w) (yOf w)
  | 0x7#4 => .subRegRev (xOf w) (yOf w)
  | 0xE#4 => .shiftLeft (xOf w) (yOf w)
  | _ => .undefinedNop w

/-- Category 0xE disambiguates on the low byte (R75). -/
def decodeCategoryE (w : Word) : Instr :=
  match kkOf w with
  | 0x9E#8 => .skipIfKey (xOf w)
  | 0xA1#8 => .skipIfNotKey (xOf w)
  | _ => .undefinedNop w

/-- Category 0xF disambiguates on the low byte (R75). -/
def decodeCategoryF (w : Word) : Instr :=
  match kkOf w with
  | 0x07#8 => .getDelay (xOf w)
  | 0x0A#8 => .waitKey (xOf w)
  | 0x15#8 => .setDelay (xOf w)
  | 0x18#8 => .setSound (xOf w)
  | 0x1E#8 => .addIndex (xOf w)
  | 0x29#8 => .fontChar (xOf w)
  | 0x33#8 => .storeBcd (xOf w)
  | 0x55#8 => .storeRegs (xOf w)
  | 0x65#8 => .loadRegs (xOf w)
  | _ => .undefinedNop w

/-- The decode procedure of R75: the top nibble selects a category; 0x0, 0x8, 0xE and 0xF dispatch further. -/
def decode (w : Word) : Instr :=
  match catOf w with
  | 0x0#4 => decodeCategory0 w
  | 0x1#4 => .jump (nnnOf w)
  | 0x2#4 => .call (nnnOf w)
  | 0x3#4 => .skipEqImm (xOf w) (kkOf w)
  | 0x4#4 => .skipNeImm (xOf w) (kkOf w)
  | 0x5#4 => .skipEqReg (xOf w) (yOf w) (nOf w)
  | 0x6#4 => .loadImm (xOf w) (kkOf w)
  | 0x7#4 => .addImm (xOf w) (kkOf w)
  | 0x8#4 => decodeCategory8 w
  | 0x9#4 => .skipNeReg (xOf w) (yOf w) (nOf w)
  | 0xA#4 => .setIndex (nnnOf w)
  | 0xB#4 => .jumpOffset (nnnOf w)
  | 0xC#4 => .randomAnd (xOf w) (kkOf w)
  | 0xD#4 => .draw (xOf w) (yOf w) (nOf w)
  | 0xE#4 => decodeCategoryE w
  | _ => decodeCategoryF w

/-- Why bytes hold no instruction. No word is refused (R78: there is no illegal instruction); only a missing byte is. -/
inductive DecodeError where
  /-- Fewer than two bytes: an instruction is one 16-bit word (R73). -/
  | truncated
deriving DecidableEq, Repr

/-- The decoder on bytes in address order: one big-endian word and the rest (R52, R73). -/
def decodeBytes : List Byte → Except DecodeError (Instr × List Byte)
  | hi :: lo :: rest => .ok (decode (bigEndian hi lo), rest)
  | [_] => .error .truncated
  | [] => .error .truncated

/-- The word of an instruction, from the formats of R74 and the numbers of R76. -/
def encode : Instr → Word
  | .clearDisplay ignored => packZ ignored 0x0
  | .ret ignored => packZ ignored 0xE
  | .jump nnn => packA 0x1 nnn
  | .call nnn => packA 0x2 nnn
  | .skipEqImm x kk => packI 0x3 x kk
  | .skipNeImm x kk => packI 0x4 x kk
  | .skipEqReg x y ignored => packR 0x5 x y ignored
  | .loadImm x kk => packI 0x6 x kk
  | .addImm x kk => packI 0x7 x kk
  | .copy x y => packR 0x8 x y 0x0
  | .orReg x y => packR 0x8 x y 0x1
  | .andReg x y => packR 0x8 x y 0x2
  | .xorReg x y => packR 0x8 x y 0x3
  | .addReg x y => packR 0x8 x y 0x4
  | .subReg x y => packR 0x8 x y 0x5
  | .shiftRight x y => packR 0x8 x y 0x6
  | .subRegRev x y => packR 0x8 x y 0x7
  | .shiftLeft x y => packR 0x8 x y 0xE
  | .skipNeReg x y ignored => packR 0x9 x y ignored
  | .setIndex nnn => packA 0xA nnn
  | .jumpOffset nnn => packA 0xB nnn
  | .randomAnd x kk => packI 0xC x kk
  | .draw x y n => packR 0xD x y n
  | .skipIfKey x => packI 0xE x 0x9E
  | .skipIfNotKey x => packI 0xE x 0xA1
  | .getDelay x => packI 0xF x 0x07
  | .waitKey x => packI 0xF x 0x0A
  | .setDelay x => packI 0xF x 0x15
  | .setSound x => packI 0xF x 0x18
  | .addIndex x => packI 0xF x 0x1E
  | .fontChar x => packI 0xF x 0x29
  | .storeBcd x => packI 0xF x 0x33
  | .storeRegs x => packI 0xF x 0x55
  | .loadRegs x => packI 0xF x 0x65
  | .undefinedNop w => w

/-- The bytes of an instruction in address order (R52). -/
def encodeBytes (i : Instr) : List Byte := [highByte (encode i), lowByte (encode i)]

/-- One row of the opcode map (R76): a word `w` selects it when `w &&& mask = bits`. -/
structure OpcodeRow where
  mnemonic : String
  bits : Word
  mask : Word
deriving DecidableEq, Repr

/-- A word selects a row (R76). -/
def OpcodeRow.selects (row : OpcodeRow) (w : Word) : Prop := w &&& row.mask = row.bits

/-- Rows 1 to 9 of R76. -/
def opcodeRowsLow : List OpcodeRow :=
  [⟨"clear-display", 0x0000, 0xF00F⟩, ⟨"return", 0x000E, 0xF00F⟩, ⟨"jump", 0x1000, 0xF000⟩, ⟨"call", 0x2000, 0xF000⟩,
   ⟨"skip-eq-imm", 0x3000, 0xF000⟩, ⟨"skip-ne-imm", 0x4000, 0xF000⟩, ⟨"skip-eq-reg", 0x5000, 0xF000⟩,
   ⟨"load-imm", 0x6000, 0xF000⟩, ⟨"add-imm", 0x7000, 0xF000⟩]

/-- Rows 10 to 23 of R76. -/
def opcodeRowsMid : List OpcodeRow :=
  [⟨"copy", 0x8000, 0xF00F⟩, ⟨"or", 0x8001, 0xF00F⟩, ⟨"and", 0x8002, 0xF00F⟩, ⟨"xor", 0x8003, 0xF00F⟩,
   ⟨"add-reg", 0x8004, 0xF00F⟩, ⟨"sub-reg", 0x8005, 0xF00F⟩, ⟨"shift-right", 0x8006, 0xF00F⟩,
   ⟨"sub-reg-rev", 0x8007, 0xF00F⟩, ⟨"shift-left", 0x800E, 0xF00F⟩, ⟨"skip-ne-reg", 0x9000, 0xF000⟩,
   ⟨"set-index", 0xA000, 0xF000⟩, ⟨"jump-offset", 0xB000, 0xF000⟩, ⟨"random-and", 0xC000, 0xF000⟩,
   ⟨"draw", 0xD000, 0xF000⟩]

/-- Rows 24 to 34 of R76. -/
def opcodeRowsHigh : List OpcodeRow :=
  [⟨"skip-if-key", 0xE09E, 0xF0FF⟩, ⟨"skip-if-not-key", 0xE0A1, 0xF0FF⟩, ⟨"get-delay", 0xF007, 0xF0FF⟩,
   ⟨"wait-key", 0xF00A, 0xF0FF⟩, ⟨"set-delay", 0xF015, 0xF0FF⟩, ⟨"set-sound", 0xF018, 0xF0FF⟩,
   ⟨"add-index", 0xF01E, 0xF0FF⟩, ⟨"font-char", 0xF029, 0xF0FF⟩, ⟨"store-bcd", 0xF033, 0xF0FF⟩,
   ⟨"store-regs", 0xF055, 0xF0FF⟩, ⟨"load-regs", 0xF065, 0xF0FF⟩]

/-- The 34 defined rows of the opcode map (R76); every word that selects none of them is row 35, undefined-nop. -/
def opcodeMap : List OpcodeRow := opcodeRowsLow ++ opcodeRowsMid ++ opcodeRowsHigh

/-- What the decoder reads from an instruction whose bits, numbered as the opcode table numbers them, are `w`: bits
at and above `nbits` are 0, and the one word is laid out high byte first (R52). -/
def decodeTableWord (nbits w : Nat) : Option Instr :=
  let v : Word := BitVec.ofNat 16 (w % 2 ^ nbits)
  match decodeBytes [highByte v, lowByte v] with
  | .ok (i, _) => some i
  | .error _ => none

end Sys2Proof
end

