-- ==== Sys2Proof/Config.lean ====
section
/-! DEFINITION. What is fixed for a machine and not part of its state: the free random input of a step.
The spec's three open parameters (`LOAD_BASE`, `WAITKEY_LAST`, `GLYPHS`) stand, with their defaults, in
Sys2Proof/Machine/Params.lean, where a later repair may mend them. -/

namespace Sys2Proof

/-- The random byte of the `n`-th completed step, where the host has supplied none by name (10_state.md R33:
`rnd` is "an 8-bit input of each step", "free of any law: a proof must hold for every value"). It has no body, so
nothing can be proved of any of its values. Assumption log 1. -/
opaque Config.rnd : Nat → Byte

end Sys2Proof
end

