-- ==== Sys2Proof/Machine/Params.lean ====
section
/-! DEFINITION. The spec's open parameters and their defaults (00_scope.md R6; 92_eei_decisions.md, "Open parameters in one
place"). `step` and `State.reset` are the machine at these defaults; `stepWith`, `resetWith`, `loadAt` and `machineAt` take any values.
Assumption log 2, 3, 4. -/

namespace Sys2Proof.Config

/-- `LOAD_BASE` (R6, R211; decision D14): where a program image is copied to, and the `pc` after reset. -/
def loadBase : Word := 0x200#16

/-- `WAITKEY_LAST` (R6, R163; decision D10): the highest key number that wait-key scans. -/
def waitKeyLast : KeyNum := 0xE

/-- `GLYPH_BASE` (R6, R22): the first address of the glyph table. -/
def glyphBase : Nat := 0x050

/-- `GLYPHS` (R22; decision D13): the 80 bytes of the glyph table, five bytes a digit, digit 0 first. -/
def glyphs : List Byte :=
  [0xF0, 0x90, 0x90, 0x90, 0xF0] ++ [0x20, 0x60, 0x20, 0x20, 0x70] ++   -- 0 1
  [0xF0, 0x10, 0xF0, 0x80, 0xF0] ++ [0xF0, 0x10, 0xF0, 0x10, 0xF0] ++   -- 2 3
  [0x90, 0x90, 0xF0, 0x10, 0x10] ++ [0xF0, 0x80, 0xF0, 0x10, 0xF0] ++   -- 4 5
  [0xF0, 0x80, 0xF0, 0x90, 0xF0] ++ [0xF0, 0x10, 0x20, 0x40, 0x40] ++   -- 6 7
  [0xF0, 0x90, 0xF0, 0x90, 0xF0] ++ [0xF0, 0x90, 0xF0, 0x10, 0xF0] ++   -- 8 9
  [0xF0, 0x90, 0xF0, 0x90, 0x90] ++ [0xE0, 0x90, 0xE0, 0x90, 0xE0] ++   -- A B
  [0xF0, 0x80, 0x80, 0x80, 0xF0] ++ [0xE0, 0x90, 0x90, 0x90, 0xE0] ++   -- C D
  [0xF0, 0x80, 0xF0, 0x80, 0xF0] ++ [0xF0, 0x80, 0xF0, 0x80, 0x80]      -- E F

/-- The values of the spec's open parameters that a machine is instantiated with (R6). -/
structure Parameters where
  /-- `LOAD_BASE`. -/
  loadBase : Word
  /-- `GLYPHS`, 80 bytes. -/
  glyphs : Vector Byte 80
  /-- `WAITKEY_LAST`. -/
  waitKeyLast : KeyNum
deriving DecidableEq, Repr

/-- The stated defaults (R6). -/
def defaults : Parameters where
  loadBase := loadBase
  glyphs := ⟨glyphs.toArray, rfl⟩
  waitKeyLast := waitKeyLast

/-- What D14 asks of a load base: even and at most 4094. -/
def loadBaseOk (base : Word) : Bool := decide (base.toNat ≤ 4094) && decide (base.toNat % 2 = 0)

end Sys2Proof.Config
end

