-- ==== Sys2Proof/Machine/Memory.lean ====
section
/-! DEFINITION. The memory (10_state.md R21; 20_memory.md R50 to R56): 4096 bytes, held as the list of those that differ
from the reset contents, and the byte accesses every wider access is built from. -/

namespace Sys2Proof.Machine

/-- The bytes that differ from what they were at reset, by rising address (assumption log 9). -/
abbrev Memory := List Host.Cell

/-- What an unlisted address reads as: the contents after reset, the glyph table at 0x050..0x09F and zero elsewhere
(R36, R56). -/
def Memory.unlisted (a : Nat) : Byte :=
  if Config.glyphBase ≤ a then Config.glyphs.getD (a - Config.glyphBase) 0 else 0

/-- The byte at an address (R54, R55). -/
def Memory.read : Memory → Nat → Byte
  | [], a => Memory.unlisted a
  | (k, v) :: m, a => if a = k then v else Memory.read m a

/-- Store a byte at an address (R54, R55), keeping the canonical form. -/
def Memory.write : Memory → Nat → Byte → Memory
  | [], a, v => if v = Memory.unlisted a then [] else [(a, v)]
  | (k, u) :: m, a, v =>
    if a < k then (if v = Memory.unlisted a then (k, u) :: m else (a, v) :: (k, u) :: m)
    else if a = k then (if v = Memory.unlisted a then m else (a, v) :: m)
    else (k, u) :: Memory.write m a v

/-- The `n` bytes at `a`, `a + 1`, … in ascending order (R51, R156). -/
def Memory.readBytes (m : Memory) (a : Nat) : Nat → List Byte
  | 0 => []
  | n + 1 => m.read a :: Memory.readBytes m (a + 1) n

/-- Store bytes at `a`, `a + 1`, … in ascending order (R51, R156). -/
def Memory.writeBytes (m : Memory) (a : Nat) : List Byte → Memory
  | [] => m
  | v :: vs => Memory.writeBytes (m.write a v) (a + 1) vs

/-- The range check of R54: every one of the `n` byte addresses `a`, …, `a + n - 1`, computed exactly, is at most 0xFFF.
With `n = 0` there is no address to check. -/
def inRange (a n : Nat) : Bool := n == 0 || decide (a + n - 1 ≤ 0xFFF)

/-- The addresses of the list rise strictly. -/
def Memory.rising : Memory → Bool
  | [] => true
  | [_] => true
  | (k, _) :: (k', v') :: m => decide (k < k') && Memory.rising ((k', v') :: m)

/-- Canonical form: addresses rise strictly, each is one of the 4096, and no entry equals what its address would read as
if unlisted. -/
def Memory.wf (m : Memory) : Bool :=
  Memory.rising m && m.all fun c => decide (c.1 ≤ 0xFFF) && decide (c.2 ≠ Memory.unlisted c.1)

end Sys2Proof.Machine
end

