-- ==== Sys2Proof/Machine/State.lean ====
section
/-! DEFINITION. The state of the engine, one field for each row of 10_state.md R20, two fields of the model's own for the
random input (R33), the reasons a step can stop, and the state after reset (R36). -/

namespace Sys2Proof.Machine

/-- `run_state` (R32). -/
inductive RunState where
  | running
  | faulted
deriving DecidableEq, Repr

/-- `fault_reason`, by the names of 60_exceptions.md R181; `FaultReason.code` gives the 3-bit codes. -/
inductive FaultReason where
  /-- Code 0: `run_state` is RUNNING. -/
  | noFault
  /-- Code 1: the cycle driver, `pc` odd or above 4094 (R182). -/
  | invalidProgramCounter
  /-- Code 2: call with `sp = 16` (R184). -/
  | stackOverflow
  /-- Code 3: return with `sp = 0` (R185). -/
  | stackUnderflow
  /-- Code 4: draw, store-bcd, store-regs, load-regs, a data address above 0xFFF (R186). -/
  | memoryAddressOutOfRange
  /-- Code 5: skip-if-key, skip-if-not-key with `Vx > 15` (R187). -/
  | keyIndexOutOfRange
deriving DecidableEq, Repr

/-- The framebuffer: 32 rows of 64 cells, `true` is on (R29). -/
abbrev Framebuffer := Vector (Vector Bool 64) 32

/-- The machine state (R20). `rndIn` and `draws` are the MODEL's own fields: they carry the random byte of the coming step,
which the spec makes an input of `Step` and no state (R33; assumption log 1). -/
structure State where
  /-- `mem`: 4096 bytes (R21). -/
  mem : Memory
  /-- `x[0..15]`, the source's V0 to VF (R23); `x[15]` is also the flag (R24). -/
  x : Vector Byte 16
  /-- `index` (R25). -/
  index : Word
  /-- `pc` (R26). -/
  pc : Word
  /-- `stack[0..15]` (R27). -/
  stack : Vector Word 16
  /-- `sp`, the number of return addresses held, 0 to 16 (R27). -/
  sp : Fin 17
  /-- `dt`, the delay timer (R28). -/
  dt : Byte
  /-- `st`, the sound timer (R28). -/
  st : Byte
  /-- `fb[row][column]` (R29). -/
  fb : Framebuffer
  /-- `key[0..15]`, `true` is pressed (R30). -/
  key : Vector Bool 16
  /-- `ir`, the last fetched word (R31). -/
  ir : Word
  /-- `run_state` (R32). -/
  runState : RunState
  /-- `fault_reason` (R32, R181). -/
  faultReason : FaultReason
  /-- The random byte the host has supplied for the coming step, if it has supplied one by name (R33). -/
  rndIn : Option Byte
  /-- How many random bytes have been used up: the argument of `Config.rnd` for the coming step. -/
  draws : Nat
deriving DecidableEq, Repr

/-- Reasons for a step without a next state. There are none: every fault of the spec has its entry described (60_exceptions.md
R183) and is taken, as a next state in FAULTED (assumption log 5). -/
inductive Fault where
deriving DecidableEq, Repr

/-- Reasons to refuse an instruction. -/
inductive Refusal where
  /-- An instruction that has no meaning yet: raised by an arm of `exec` only, and by none now. Safe: the machine stops. -/
  | notModelled (mnemonic : String)
deriving DecidableEq, Repr

/-- What a meaning and a step answer. -/
abbrev Result := Host.Outcome State Fault Refusal

/-- The framebuffer with every cell off (R29, R100). -/
def Framebuffer.blank : Framebuffer := Vector.replicate 32 (Vector.replicate 64 false)

/-- The state after `Reset()` (R36, 70_reset_and_hazards.md R210). `rndIn` and `draws` have no reset value in the spec:
assumption log 1. -/
def State.reset : State where
  mem := []
  x := Vector.replicate 16 0
  index := 0
  pc := Config.loadBase
  stack := Vector.replicate 16 0
  sp := 0
  dt := 0
  st := 0
  fb := Framebuffer.blank
  key := Vector.replicate 16 false
  ir := 0
  runState := .running
  faultReason := .noFault
  rndIn := none
  draws := 0

end Sys2Proof.Machine
end

