-- ==== Sys2Proof/Machine/Ops.lean ====
section
/-! DEFINITION. The named operations over the state: register, index, program-counter, stack, timer, display and memory updates,
and taking a fault (60_exceptions.md R183). Every meaning is built from these. -/

namespace Sys2Proof.Machine

/-- The code of a fault reason (60_exceptions.md R181). -/
def FaultReason.code : FaultReason → BitVec 3
  | .noFault => 0
  | .invalidProgramCounter => 1
  | .stackOverflow => 2
  | .stackUnderflow => 3
  | .memoryAddressOutOfRange => 4
  | .keyIndexOutOfRange => 5

namespace State

/-- `x[r]` (R9). -/
def reg (s : State) (r : RegNum) : Byte := s.x[r]

/-- `x[r] <- v` (R9). No register is hardwired (R23). -/
def setReg (s : State) (r : RegNum) (v : Byte) : State := { s with x := s.x.set r v }

/-- Replace the whole register file. -/
def setRegs (s : State) (x : Vector Byte 16) : State := { s with x := x }

/-- `index <- v`. -/
def setIndex (s : State) (v : Word) : State := { s with index := v }

/-- `pc <- target` (R9). -/
def setPc (s : State) (target : Word) : State := { s with pc := target }

/-- `dt <- v`. -/
def setDt (s : State) (v : Byte) : State := { s with dt := v }

/-- `st <- v`. -/
def setSt (s : State) (v : Byte) : State := { s with st := v }

/-- Replace the framebuffer. -/
def setFb (s : State) (fb : Framebuffer) : State := { s with fb := fb }

/-- Replace the memory. -/
def setMem (s : State) (m : Memory) : State := { s with mem := m }

/-- Replace the sixteen key flags; only the host does this (R30). -/
def setKey (s : State) (key : Vector Bool 16) : State := { s with key := key }

/-- `pc <- (pc + 2) mod 65536` when the condition of a skip holds (R113, D17). -/
def skipIf (s : State) (c : Bool) : State := if c then s.setPc (s.pc + 2) else s

/-- Put `v` in `stack[sp]`, then `sp <- sp + 1`; `none` when the stack is full (R27, R112). -/
def push? (s : State) (v : Word) : Option State :=
  if h : s.sp.val < 16 then
    some { s with stack := s.stack.set s.sp.val v h, sp := ⟨s.sp.val + 1, by omega⟩ }
  else none

/-- `sp <- sp - 1`, then `stack[sp]` into `pc`; `none` when the stack is empty (R27, R110). The slot keeps its value. -/
def popToPc? (s : State) : Option State :=
  if h : 0 < s.sp.val then
    some { s with pc := s.stack[s.sp.val - 1]'(by omega), sp := ⟨s.sp.val - 1, by omega⟩ }
  else none

/-- `raise` (R9, R183), as seen from inside an instruction: `run_state <- FAULTED`, `fault_reason <- code`. What the step
has done before the raise is discarded by the cycle (`endStep`). -/
def raise (s : State) (r : FaultReason) : State := { s with runState := .faulted, faultReason := r }

/-- The random byte of the step in progress (R33): the one the host supplied, else a free value (assumption log 1). -/
def rnd (s : State) : Byte := s.rndIn.getD (Config.rnd s.draws)

/-- The result of a transfer of `n` bytes at `index`: `t` when every address is in range, else the fault, with nothing
read and nothing written (R54, R186). -/
def transfer (s : State) (n : Nat) (t : State) : Result :=
  if inRange s.index.toNat n then .next t else .next (s.raise .memoryAddressOutOfRange)

end State

end Sys2Proof.Machine
end

