-- ==== Sys2Proof/Machine/Flags.lean ====
section
/-! DEFINITION. The flag computations (10_state.md R24; 42_arith_logic.md R136 to R140, R142, R143). The one flag is `x[15]`. -/

namespace Sys2Proof.Machine

/-- A flag as the byte `x[15]` holds: always 0 or 1 (R24). -/
def flagByte (b : Bool) : Byte := if b then 1 else 0

/-- add-reg: the exact sum passes 255 (R136). -/
def carryFlag (a b : Byte) : Bool := decide (255 < a.toNat + b.toNat)

/-- sub-reg and sub-reg-rev: the minuend is strictly greater than the subtrahend (R137, R139, R142). -/
def greaterFlag (minuend subtrahend : Byte) : Bool := decide (subtrahend.toNat < minuend.toNat)

/-- shift-right: the bit shifted out, old bit 0 (R138). -/
def lowBitFlag (a : Byte) : Bool := a.getLsbD 0

/-- shift-left: the bit shifted out, old bit 7 (R140, decision D6). -/
def highBitFlag (a : Byte) : Bool := a.getLsbD 7

/-- `x[15] <- flag`. -/
def State.setFlag (s : State) (b : Bool) : State := s.setReg 15 (flagByte b)

/-- The result first, the flag last, so that with `X = 15` the flag is what remains (R143, decision D7). -/
def State.setResultAndFlag (s : State) (r : RegNum) (v : Byte) (b : Bool) : State := (s.setReg r v).setFlag b

end Sys2Proof.Machine
end

