-- ==== Sys2Proof/Machine/Operands.lean ====
section
/-! DEFINITION. The operand forms (30_encoding.md R80): zero-extended addresses, key numbers, sprite coordinates, glyph addresses,
decimal digits, register ranges. Nothing is sign-extended or scaled. -/

namespace Sys2Proof.Machine

/-- `zext_16(NNN)`: a 12-bit absolute address (R80). -/
def address (nnn : BitVec 12) : Word := nnn.setWidth 16

/-- `zext_16` of a register, as a 16-bit addend (R117, R151). -/
def byteToWord (v : Byte) : Word := v.setWidth 16

/-- `0x0050 + 5 * zext_16(Vx)`, on the whole byte (R152). -/
def glyphAddress (v : Byte) : Word := BitVec.ofNat 16 Config.glyphBase + 5 * byteToWord v

/-- A register as a key number; `none` above 15 (R160, R161). -/
def keyOperand (v : Byte) : Option KeyNum :=
  if h : v.toNat ≤ 15 then some ⟨v.toNat, by omega⟩ else none

/-- A key number as a register value (R163). -/
def keyByte (k : KeyNum) : Byte := BitVec.ofNat 8 k.val

/-- The lowest pressed key among 0..`last` (R163, decision D10). -/
def scanKeys (key : Vector Bool 16) (last : KeyNum) : Option KeyNum :=
  (List.finRange 16).find? fun k => decide (k ≤ last) && key[k]

/-- `Vx mod 64`, the column of a sprite's left edge (R101). -/
def startColumn (v : Byte) : Nat := v.toNat % 64

/-- `Vy mod 32`, the row of a sprite's top edge (R101). -/
def startRow (v : Byte) : Nat := v.toNat % 32

/-- Hundreds, tens and ones of a byte, each a binary value in its own byte (R153). -/
def decimalDigits (v : Byte) : List Byte :=
  [BitVec.ofNat 8 (v.toNat / 100), BitVec.ofNat 8 (v.toNat / 10 % 10), BitVec.ofNat 8 (v.toNat % 10)]

/-- `x[0]` to `x[last]`, in ascending order (R154). -/
def registersTo (x : Vector Byte 16) (last : RegNum) : List Byte := x.toList.take (last.val + 1)

/-- `x[i] <- mem[a + i]` for `i` in `0..last`; the other registers keep their values (R155). -/
def loadRegistersTo (x : Vector Byte 16) (m : Memory) (a : Nat) (last : RegNum) : Vector Byte 16 :=
  Vector.ofFn fun i : RegNum => if i ≤ last then m.read (a + i.val) else x[i]

end Sys2Proof.Machine
end

