-- ==== Sys2Proof/Machine/ArithLogic.lean ====
section
/-! DEFINITION. The meanings of 42_arith_logic.md: load-imm, add-imm, copy, or, and, xor, add-reg, sub-reg, shift-right,
sub-reg-rev, shift-left, random-and. Every operand is read before anything is written (R143). -/

namespace Sys2Proof.Machine

/-- load-imm: `x[X] <- KK` (R130). -/
def execLoadImm (x : RegNum) (kk : Byte) (s : State) : Result := .next (s.setReg x kk)

/-- add-imm: `x[X] <- (x[X] + KK) mod 256`, no flag (R131). -/
def execAddImm (x : RegNum) (kk : Byte) (s : State) : Result := .next (s.setReg x (s.reg x + kk))

/-- copy: `x[X] <- x[Y]` (R132). -/
def execCopy (x y : RegNum) (s : State) : Result := .next (s.setReg x (s.reg y))

/-- or: `x[X] <- x[X] | x[Y]`, no flag (R133). -/
def execOrReg (x y : RegNum) (s : State) : Result := .next (s.setReg x (s.reg x ||| s.reg y))

/-- and: `x[X] <- x[X] & x[Y]`, no flag (R134). -/
def execAndReg (x y : RegNum) (s : State) : Result := .next (s.setReg x (s.reg x &&& s.reg y))

/-- xor: `x[X] <- x[X] ^ x[Y]`, no flag (R135). -/
def execXorReg (x y : RegNum) (s : State) : Result := .next (s.setReg x (s.reg x ^^^ s.reg y))

/-- add-reg: the sum modulo 256, the carry to `x[15]` (R136). -/
def execAddReg (x y : RegNum) (s : State) : Result :=
  .next (s.setResultAndFlag x (s.reg x + s.reg y) (carryFlag (s.reg x) (s.reg y)))

/-- sub-reg: `Vx - Vy` modulo 256, `Vx > Vy` to `x[15]` (R137). -/
def execSubReg (x y : RegNum) (s : State) : Result :=
  .next (s.setResultAndFlag x (s.reg x - s.reg y) (greaterFlag (s.reg x) (s.reg y)))

/-- shift-right: `Vx >> 1`, old bit 0 to `x[15]`; `Y` is not used (R138). -/
def execShiftRight (x _y : RegNum) (s : State) : Result :=
  .next (s.setResultAndFlag x (s.reg x >>> 1) (lowBitFlag (s.reg x)))

/-- sub-reg-rev: `Vy - Vx` modulo 256, `Vy > Vx` to `x[15]` (R139). -/
def execSubRegRev (x y : RegNum) (s : State) : Result :=
  .next (s.setResultAndFlag x (s.reg y - s.reg x) (greaterFlag (s.reg y) (s.reg x)))

/-- shift-left: `(Vx << 1) mod 256`, old bit 7 to `x[15]`; `Y` is not used (R140). -/
def execShiftLeft (x _y : RegNum) (s : State) : Result :=
  .next (s.setResultAndFlag x (s.reg x <<< 1) (highBitFlag (s.reg x)))

/-- random-and: `x[X] <- rnd & KK` (R141). -/
def execRandomAnd (x : RegNum) (kk : Byte) (s : State) : Result := .next (s.setReg x (s.rnd &&& kk))

end Sys2Proof.Machine
end

