-- ==== Sys2Proof/Machine/ControlFlow.lean ====
section
/-! DEFINITION. The meanings of 41_control_flow.md: return, jump, call, the four compare skips, jump-offset. `pc` has already been
advanced past the instruction (30_encoding.md R71). -/

namespace Sys2Proof.Machine

/-- return: pop the call stack into `pc`; StackUnderflow when it is empty (R110, R185). -/
def execRet (s : State) : Result :=
  match s.popToPc? with
  | some t => .next t
  | none => .next (s.raise .stackUnderflow)

/-- jump: `pc <- zext_16(NNN)` (R111). -/
def execJump (nnn : BitVec 12) (s : State) : Result := .next (s.setPc (address nnn))

/-- call: push the advanced `pc`, then jump; StackOverflow when the stack is full (R112, R184). -/
def execCall (nnn : BitVec 12) (s : State) : Result :=
  match s.push? s.pc with
  | some t => .next (t.setPc (address nnn))
  | none => .next (s.raise .stackOverflow)

/-- skip-eq-imm (R113). -/
def execSkipEqImm (x : RegNum) (kk : Byte) (s : State) : Result := .next (s.skipIf (s.reg x == kk))

/-- skip-ne-imm (R114). -/
def execSkipNeImm (x : RegNum) (kk : Byte) (s : State) : Result := .next (s.skipIf (s.reg x != kk))

/-- skip-eq-reg (R115). -/
def execSkipEqReg (x y : RegNum) (s : State) : Result := .next (s.skipIf (s.reg x == s.reg y))

/-- skip-ne-reg (R116). -/
def execSkipNeReg (x y : RegNum) (s : State) : Result := .next (s.skipIf (s.reg x != s.reg y))

/-- jump-offset: `pc <- (zext_16(x[0]) + zext_16(NNN)) mod 65536` (R117). -/
def execJumpOffset (nnn : BitVec 12) (s : State) : Result :=
  .next (s.setPc (byteToWord (s.reg 0) + address nnn))

end Sys2Proof.Machine
end

