-- ==== Sys2Proof/Machine/Display.lean ====
section
/-! DEFINITION. The meanings of 40_display.md: clear-display and draw, with draw's two loops as the rule's pseudocode has them. -/

namespace Sys2Proof.Machine

/-- What the loops of draw carry: the framebuffer and `hit` (R101). -/
abbrev Canvas := Framebuffer × Bool

/-- One pixel of a sprite: a set bit at a place on the display sets `hit` if the cell was on, then toggles the cell; a clear bit
or a clipped place does nothing (R101). -/
def plot (bit : Bool) (py px : Nat) (d : Canvas) : Canvas :=
  if h : bit = true ∧ px ≤ 63 ∧ py ≤ 31 then
    (d.1.set py (d.1[py].set px (!d.1[py][px])), d.2 || d.1[py][px])
  else d

/-- One row of a sprite: the columns `c` listed, with bit `7 - c` at column `x0 + c` (R101). -/
def plotColumns (row : Byte) (py x0 : Nat) : List Nat → Canvas → Canvas
  | [], d => d
  | c :: cs, d => plotColumns row py x0 cs (plot (row.getLsbD (7 - c)) py (x0 + c) d)

/-- The rows of a sprite, the first at `py`, bit 7 leftmost at column `x0` (R101). -/
def plotRows (x0 : Nat) : List Byte → Nat → Canvas → Canvas
  | [], _, d => d
  | row :: rows, py, d => plotRows x0 rows (py + 1) (plotColumns row py x0 [0, 1, 2, 3, 4, 5, 6, 7] d)

/-- Draw a sprite with its top left corner at row `y0`, column `x0`; `hit` starts at 0 (R101). -/
def drawSprite (rows : List Byte) (x0 y0 : Nat) (fb : Framebuffer) : Canvas := plotRows x0 rows y0 (fb, false)

/-- clear-display: every cell off (R100). -/
def execClearDisplay (s : State) : Result := .next (s.setFb Framebuffer.blank)

/-- draw: the `N` bytes at `index` as a sprite at (`Vx mod 64`, `Vy mod 32`), the collision to `x[15]` last (R101). All `N`
bytes are in the range check, those of clipped rows too (decision D20). -/
def execDraw (x y : RegNum) (n : BitVec 4) (s : State) : Result :=
  let drawn := drawSprite (s.mem.readBytes s.index.toNat n.toNat) (startColumn (s.reg x)) (startRow (s.reg y)) s.fb
  s.transfer n.toNat ((s.setFb drawn.1).setFlag drawn.2)

end Sys2Proof.Machine
end

