-- ==== Sys2Proof/Machine/IndexMemory.lean ====
section
/-! DEFINITION. The meanings of 43_index_memory.md: set-index, add-index, font-char, store-bcd, store-regs, load-regs. No transfer
changes `index`; the address of byte `i` is `index + i`, computed exactly (R156). -/

namespace Sys2Proof.Machine

/-- set-index: `index <- zext_16(NNN)` (R150). -/
def execSetIndex (nnn : BitVec 12) (s : State) : Result := .next (s.setIndex (address nnn))

/-- add-index: `index <- (index + zext_16(Vx)) mod 65536`, no flag (R151). -/
def execAddIndex (x : RegNum) (s : State) : Result := .next (s.setIndex (s.index + byteToWord (s.reg x)))

/-- font-char: `index <- 0x50 + 5 * Vx` (R152). -/
def execFontChar (x : RegNum) (s : State) : Result := .next (s.setIndex (glyphAddress (s.reg x)))

/-- store-bcd: hundreds, tens and ones of `Vx` to `index`, `index + 1`, `index + 2` (R153). -/
def execStoreBcd (x : RegNum) (s : State) : Result :=
  s.transfer 3 (s.setMem (s.mem.writeBytes s.index.toNat (decimalDigits (s.reg x))))

/-- store-regs: `x[0]` to `x[X]` to `index`, …, `index + X` (R154). -/
def execStoreRegs (x : RegNum) (s : State) : Result :=
  s.transfer (x.val + 1) (s.setMem (s.mem.writeBytes s.index.toNat (registersTo s.x x)))

/-- load-regs: `x[0]` to `x[X]` from `index`, …, `index + X` (R155). -/
def execLoadRegs (x : RegNum) (s : State) : Result :=
  s.transfer (x.val + 1) (s.setRegs (loadRegistersTo s.x s.mem s.index.toNat x))

end Sys2Proof.Machine
end

