-- ==== Sys2Proof/Machine/TimerInput.lean ====
section
/-! DEFINITION. The meanings of 44_timer_input.md: skip-if-key, skip-if-not-key, get-delay, wait-key, set-delay, set-sound. The timer
tick of 30_encoding.md R72 follows in the same step. -/

namespace Sys2Proof.Machine

/-- Skip when key `Vx` has the wanted level; KeyIndexOutOfRange when `Vx > 15` (R160, R161, R187). -/
def skipOnKey (wanted : Bool) (x : RegNum) (s : State) : Result :=
  match keyOperand (s.reg x) with
  | some k => .next (s.skipIf (s.key[k] == wanted))
  | none => .next (s.raise .keyIndexOutOfRange)

/-- wait-key at a value `last` of the parameter `WAITKEY_LAST` (R6; `execWith`, `stepWith`). Scan keys 0..`last`: the lowest pressed one into `Vx`, or, when none is, `pc` back to this instruction (R163). -/
def waitKeyUpTo (last : KeyNum) (x : RegNum) (s : State) : Result :=
  match scanKeys s.key last with
  | some k => .next (s.setReg x (keyByte k))
  | none => .next (s.setPc (s.pc - 2))

/-- skip-if-key: skip when `key[Vx] = 1` (R160). -/
def execSkipIfKey (x : RegNum) (s : State) : Result := skipOnKey true x s

/-- skip-if-not-key: skip when `key[Vx] = 0` (R161). -/
def execSkipIfNotKey (x : RegNum) (s : State) : Result := skipOnKey false x s

/-- get-delay: `x[X] <- dt`, before this step's tick (R162). -/
def execGetDelay (x : RegNum) (s : State) : Result := .next (s.setReg x s.dt)

/-- wait-key, with the default of the parameter `WAITKEY_LAST` (R163; assumption log 4). -/
def execWaitKey (x : RegNum) (s : State) : Result := waitKeyUpTo Config.waitKeyLast x s

/-- set-delay: `dt <- x[X]` (R164). -/
def execSetDelay (x : RegNum) (s : State) : Result := .next (s.setDt (s.reg x))

/-- set-sound: `st <- x[X]` (R165). -/
def execSetSound (x : RegNum) (s : State) : Result := .next (s.setSt (s.reg x))

end Sys2Proof.Machine
end

