-- ==== Sys2Proof/Machine/Undefined.lean ====
section
/-! DEFINITION. The meaning of 45_undefined_word.md: a word outside the opcode map does nothing (R170). -/

namespace Sys2Proof.Machine

/-- undefined-nop: nothing (R170); the step around it still latches, advances and ticks. -/
def execUndefinedNop (s : State) : Result := .next s

end Sys2Proof.Machine
end

