-- ==== Sys2Proof/Machine/Cycle.lean ====
section
/-! DEFINITION. The cycle driver (30_encoding.md R70 to R72): the program-counter check, the fetch, the latch and advance, the execution,
and the end of the step, where a fault discards what the step did (60_exceptions.md R183) and a completed step ticks the timers. -/

namespace Sys2Proof.Machine

/-- The program counter a fetch accepts: at most 4094 and even (R53, R70 line 2). -/
def State.fetchable (s : State) : Bool := decide (s.pc.toNat ≤ 4094) && !s.pc.getLsbD 0

/-- The big-endian word at `pc` (R70 line 3, R71). -/
def State.fetchWord (s : State) : Word := bigEndian (s.mem.read s.pc.toNat) (s.mem.read (s.pc.toNat + 1))

/-- `ir <- w`, `pc <- (pc + 2) mod 65536` (R70 lines 4 and 5). -/
def State.latch (s : State) (w : Word) : State := { s with ir := w, pc := s.pc + 2 }

/-- `dt > 0 ? dt - 1 : 0` (R72). -/
def countDown (v : Byte) : Byte := if v = 0 then 0 else v - 1

/-- Both timers, independently (R70 lines 7 and 8, R72). -/
def State.tick (s : State) : State := { s with dt := countDown s.dt, st := countDown s.st }

/-- The random byte of this step is used up; the next step has its own (R33; assumption log 1). -/
def State.nextRnd (s : State) : State := { s with rndIn := none, draws := s.draws + 1 }

/-- The end of a step that began in `s0` and whose instruction left `s1`: if it raised a fault, `s0` with `run_state` and
`fault_reason` changed and nothing else (R183); otherwise the timer tick (R72). -/
def endStep (s0 s1 : State) : State :=
  match s1.runState with
  | .faulted => s0.raise s1.faultReason
  | .running => s1.tick.nextRnd

/-- `Step` (R70) over a way to execute instructions. A FAULTED machine does not change (line 1, R188); a bad `pc` faults before the
fetch (line 2, R182). -/
def cycleBy (execute : Instr → State → Result) (s : State) : Result :=
  match s.runState with
  | .faulted => .next s
  | .running =>
    if s.fetchable then
      match execute (decode s.fetchWord) (s.latch s.fetchWord) with
      | .next s1 => .next (endStep s s1)
      | .fault f => .fault f
      | .refused r => .refused r
    else .next (s.raise .invalidProgramCounter)

/-- `Step` (R70), with the default `WAITKEY_LAST`. -/
def cycle (s : State) : Result := cycleBy exec s

/-- The execution of an instruction at a value of the parameter `WAITKEY_LAST` (R6): only wait-key depends on it (R163). -/
def execWith (last : KeyNum) (i : Instr) (s : State) : Result :=
  match i with
  | .waitKey x => waitKeyUpTo last x s
  | i => exec i s

/-- `Step` (R70) at a value of the parameter `WAITKEY_LAST` (R6; assumption log 4). -/
def stepWith (last : KeyNum) (s : State) : Result := cycleBy (execWith last) s

/-- `s` able to fetch: itself if it is RUNNING with a `pc` that a fetch accepts; otherwise RUNNING, and `pc` at the load base
if it was not acceptable (assumption log 8). -/
def State.readyToFetch (s : State) : State :=
  let t := if s.fetchable then s else s.setPc Config.loadBase
  match t.runState with
  | .running => t
  | .faulted => { t with runState := .running, faultReason := .noFault }

/-- The word `w` stored, high byte first, where the next fetch reads (R52). -/
def State.placeWord (s : State) (w : Word) : State :=
  let t := s.readyToFetch
  t.setMem (t.mem.writeBytes t.pc.toNat [highByte w, lowByte w])

end Sys2Proof.Machine
end

