-- ==== Sys2Proof/Machine/Step.lean ====
section
/-! DEFINITION. The step of the machine (30_encoding.md R70), and an instruction placed where it fetches next. -/

namespace Sys2Proof.Machine

/-- `Step`, with the random byte that `State.rnd` gives (R70; assumption log 1). -/
def step (s : State) : Host.Outcome State Fault Refusal := cycle s

/-- `s` with the one-word instruction `w` (bits at and above `nbits` zero) where `step` fetches next (assumption log 7, 8). -/
def State.withFetchWord (s : State) (nbits w : Nat) : State := s.placeWord (BitVec.ofNat 16 (w % 2 ^ nbits))

end Sys2Proof.Machine
end

