-- ==== Sys2Proof/Machine/HostOps.lean ====
section
/-! DEFINITION. What the host may do between steps (10_state.md R37; 70_reset_and_hazards.md R210 to R217): reset, load, set the keys, step
with a random byte, read. -/

namespace Sys2Proof.Machine

/-- `Reset()` with other values of the open parameters `GLYPHS` and `LOAD_BASE` (R210; R6). -/
def resetWith (glyphs : List Byte) (loadBase : Word) : State :=
  { State.reset with mem := Memory.writeBytes [] Config.glyphBase glyphs, pc := loadBase }

/-- `Reset()`: every item of the state, whatever it was (R210). -/
def hostReset (_s : State) : State := State.reset

/-- Why `Load` is refused (R213). -/
inductive LoadError where
  /-- The image does not fit below the end of memory. -/
  | doesNotFit
deriving DecidableEq, Repr

/-- `Load(image)` at a load base (R212): all the bytes, or, when they do not fit, an error and no change. -/
def loadAt (base : Word) (image : List Byte) (s : State) : Except LoadError State :=
  if base.toNat + image.length > 4096 then .error .doesNotFit
  else .ok (s.setMem (s.mem.writeBytes base.toNat image))

/-- `Load(image)` (R212) with the default `LOAD_BASE`. -/
def load (image : List Byte) (s : State) : Except LoadError State := loadAt Config.loadBase image s

/-- `SetKeys(k)`: `key[i] <- k[i]` for all sixteen (R214). -/
def setKeys (k : BitVec 16) (s : State) : State := s.setKey (Vector.ofFn fun i : KeyNum => k.getLsbD i.val)

/-- The random byte of the coming step, supplied by the host (R33, R217). -/
def supplyRnd (r : Byte) (s : State) : State := { s with rndIn := some r }

/-- `Step(rnd)` (R70) after the host has set the keys to `k` (R214): one turn of host and engine. -/
def turn (k : BitVec 16) (r : Byte) (s : State) : Result := step (supplyRnd r (setKeys k s))

/-- The same turn at a value of the parameter `WAITKEY_LAST` (R6). -/
def turnWith (last : KeyNum) (k : BitVec 16) (r : Byte) (s : State) : Result := stepWith last (supplyRnd r (setKeys k s))

/-- A run (R216) over a way to take a turn: for each turn the keys and the random byte that the host chose. -/
def runTurnsBy (take : BitVec 16 → Byte → State → Result) : List (BitVec 16 × Byte) → State → Result
  | [], s => .next s
  | (k, r) :: rest, s =>
    match take k r s with
    | .next t => runTurnsBy take rest t
    | .fault f => .fault f
    | .refused e => .refused e

/-- A run with the default `WAITKEY_LAST`. -/
def runTurns (turns : List (BitVec 16 × Byte)) (s : State) : Result := runTurnsBy turn turns s

/-- A run at a value of the parameter `WAITKEY_LAST` (R6). -/
def runTurnsWith (last : KeyNum) (turns : List (BitVec 16 × Byte)) (s : State) : Result := runTurnsBy (turnWith last) turns s

/-- The machine instantiated at values of all three open parameters (R6). -/
def machineAt (p : Config.Parameters) : Host.Core where
  State := State
  Fault := Fault
  Refusal := Refusal
  step := stepWith p.waitKeyLast
  reset := resetWith p.glyphs.toList p.loadBase

/-- What `Step` returns (R37, R70): Ok, or Fault with its reason. -/
inductive StepResult where
  | ok
  | faulted (reason : FaultReason)
deriving DecidableEq, Repr

/-- What the `Step` that left `s` returned (R70, R183, R188): a step ends FAULTED exactly when it returned Fault. -/
def stepResult (s : State) : StepResult :=
  match s.runState with
  | .running => .ok
  | .faulted => .faulted s.faultReason

/-- What the host can read between steps (R37, R217). -/
structure HostView where
  fb : Framebuffer
  dt : Byte
  st : Byte
  ir : Word
  runState : RunState
  faultReason : BitVec 3
deriving DecidableEq, Repr

/-- The host's reading of a state (R37, R217). -/
def hostView (s : State) : HostView := ⟨s.fb, s.dt, s.st, s.ir, s.runState, s.faultReason.code⟩

end Sys2Proof.Machine
end

