-- ==== Sys2Proof/Safety.lean ====
section
/-! DEFINITION. The terms claims use: which parts of a state are unchanged, which parts an instruction may write (10_state.md R20),
which fault a step must take (60_exceptions.md R181, R189), what a sprite covers (40_display.md R101), the invariant of the machine
(10_state.md R35) and the states a host can reach (70_reset_and_hazards.md R215). -/

namespace Sys2Proof.Machine

/-- The items of the state (R20), and the model's own two. -/
inductive Component where
  | mem | regs | index | pc | stack | sp | dt | st | fb | key | ir | runState | faultReason | rndIn | draws
deriving DecidableEq, Repr

/-- `t` has this item as `s` has it. For `mem`: the same list, and so every address reads as before. -/
def Component.same : Component → State → State → Prop
  | .mem, s, t => t.mem = s.mem ∧ ∀ a, t.mem.read a = s.mem.read a
  | .regs, s, t => t.x = s.x
  | .index, s, t => t.index = s.index
  | .pc, s, t => t.pc = s.pc
  | .stack, s, t => t.stack = s.stack
  | .sp, s, t => t.sp = s.sp
  | .dt, s, t => t.dt = s.dt
  | .st, s, t => t.st = s.st
  | .fb, s, t => t.fb = s.fb
  | .key, s, t => t.key = s.key
  | .ir, s, t => t.ir = s.ir
  | .runState, s, t => t.runState = s.runState
  | .faultReason, s, t => t.faultReason = s.faultReason
  | .rndIn, s, t => t.rndIn = s.rndIn
  | .draws, s, t => t.draws = s.draws

/-- The frame: every item but those listed is in `t` as it was in `s`. -/
def UnchangedExcept (written : List Component) (s t : State) : Prop :=
  ∀ c : Component, c ∉ written → c.same s t

/-- `i` completes in `s`, writing `v` to register `x` and nothing else. -/
def WritesOnlyReg (i : Instr) (s : State) (x : RegNum) (v : Byte) : Prop :=
  ∃ t, exec i s = .next t ∧ (∀ q : RegNum, t.reg q = if q = x then v else s.reg q) ∧ UnchangedExcept [.regs] s t

/-- `i` completes in `s`, writing `v` to register `x` and then 1 or 0 to register 15 as `flag` holds or not, and nothing else. With
`x = 15` the flag is what register 15 holds. -/
def WritesRegThenFlag (i : Instr) (s : State) (x : RegNum) (v : Byte) (flag : Prop) : Prop :=
  ∃ t, exec i s = .next t ∧ (flag → t.reg 15 = 1) ∧ (¬ flag → t.reg 15 = 0) ∧
    (∀ q : RegNum, q ≠ 15 → t.reg q = if q = x then v else s.reg q) ∧ UnchangedExcept [.regs] s t

/-- `i` completes in `s`, leaving `pc` at `target` and changing nothing else. -/
def WritesOnlyPc (i : Instr) (s : State) (target : Word) : Prop :=
  ∃ t, exec i s = .next t ∧ t.pc = target ∧ UnchangedExcept [.pc] s t

/-- `i` raises the fault `r` in `s`: FAULTED with that reason, and nothing else changed (R183). -/
def RaisesOnly (i : Instr) (s : State) (r : FaultReason) : Prop :=
  ∃ t, exec i s = .next t ∧ t.runState = .faulted ∧ t.faultReason = r ∧ UnchangedExcept [.runState, .faultReason] s t

/-- The machine stands at an instruction it will execute: RUNNING, `pc` acceptable, and the word there decodes to `i`. -/
def AboutToExecute (s : State) (i : Instr) : Prop :=
  s.runState = .running ∧ s.pc.toNat ≤ 4094 ∧ s.pc.toNat % 2 = 0 ∧ decode s.fetchWord = i

/-- The items an instruction itself may write (the "written by" column of R20). -/
def writtenBy : Instr → List Component
  | .clearDisplay _ => [.fb]
  | .ret _ => [.pc, .sp]
  | .jump _ => [.pc]
  | .call _ => [.pc, .sp, .stack]
  | .skipEqImm _ _ => [.pc]
  | .skipNeImm _ _ => [.pc]
  | .skipEqReg _ _ _ => [.pc]
  | .loadImm _ _ => [.regs]
  | .addImm _ _ => [.regs]
  | .copy _ _ => [.regs]
  | .orReg _ _ => [.regs]
  | .andReg _ _ => [.regs]
  | .xorReg _ _ => [.regs]
  | .addReg _ _ => [.regs]
  | .subReg _ _ => [.regs]
  | .shiftRight _ _ => [.regs]
  | .subRegRev _ _ => [.regs]
  | .shiftLeft _ _ => [.regs]
  | .skipNeReg _ _ _ => [.pc]
  | .setIndex _ => [.index]
  | .jumpOffset _ => [.pc]
  | .randomAnd _ _ => [.regs]
  | .draw _ _ _ => [.fb, .regs]
  | .skipIfKey _ => [.pc]
  | .skipIfNotKey _ => [.pc]
  | .getDelay _ => [.regs]
  | .waitKey _ => [.pc, .regs]
  | .setDelay _ => [.dt]
  | .setSound _ => [.st]
  | .addIndex _ => [.index]
  | .fontChar _ => [.index]
  | .storeBcd _ => [.mem]
  | .storeRegs _ => [.mem]
  | .loadRegs _ => [.regs]
  | .undefinedNop _ => []

/-- What the cycle itself writes in a step that completes (R70): the latch, the advance, the tick and the model's random input. -/
def writtenByCycle : List Component := [.ir, .pc, .dt, .st, .rndIn, .draws]

/-- The registers an instruction may write (R23, R24): its destination, `x[15]` as a flag, or a range from `x[0]`. -/
def mayWriteReg : Instr → RegNum → Prop
  | .clearDisplay _, _ => False
  | .ret _, _ => False
  | .jump _, _ => False
  | .call _, _ => False
  | .skipEqImm _ _, _ => False
  | .skipNeImm _ _, _ => False
  | .skipEqReg _ _ _, _ => False
  | .loadImm x _, q => q = x
  | .addImm x _, q => q = x
  | .copy x _, q => q = x
  | .orReg x _, q => q = x
  | .andReg x _, q => q = x
  | .xorReg x _, q => q = x
  | .addReg x _, q => q = x ∨ q = 15
  | .subReg x _, q => q = x ∨ q = 15
  | .shiftRight x _, q => q = x ∨ q = 15
  | .subRegRev x _, q => q = x ∨ q = 15
  | .shiftLeft x _, q => q = x ∨ q = 15
  | .skipNeReg _ _ _, _ => False
  | .setIndex _, _ => False
  | .jumpOffset _, _ => False
  | .randomAnd x _, q => q = x
  | .draw _ _ _, q => q = 15
  | .skipIfKey _, _ => False
  | .skipIfNotKey _, _ => False
  | .getDelay x, q => q = x
  | .waitKey x, q => q = x
  | .setDelay _, _ => False
  | .setSound _, _ => False
  | .addIndex _, _ => False
  | .fontChar _, _ => False
  | .storeBcd _, _ => False
  | .storeRegs _, _ => False
  | .loadRegs x, q => q ≤ x
  | .undefinedNop _, _ => False

/-- How many bytes of data memory an instruction accesses, from `index` up (R51). -/
def dataBytes : Instr → Nat
  | .clearDisplay _ => 0
  | .ret _ => 0
  | .jump _ => 0
  | .call _ => 0
  | .skipEqImm _ _ => 0
  | .skipNeImm _ _ => 0
  | .skipEqReg _ _ _ => 0
  | .loadImm _ _ => 0
  | .addImm _ _ => 0
  | .copy _ _ => 0
  | .orReg _ _ => 0
  | .andReg _ _ => 0
  | .xorReg _ _ => 0
  | .addReg _ _ => 0
  | .subReg _ _ => 0
  | .shiftRight _ _ => 0
  | .subRegRev _ _ => 0
  | .shiftLeft _ _ => 0
  | .skipNeReg _ _ _ => 0
  | .setIndex _ => 0
  | .jumpOffset _ => 0
  | .randomAnd _ _ => 0
  | .draw _ _ n => n.toNat
  | .skipIfKey _ => 0
  | .skipIfNotKey _ => 0
  | .getDelay _ => 0
  | .waitKey _ => 0
  | .setDelay _ => 0
  | .setSound _ => 0
  | .addIndex _ => 0
  | .fontChar _ => 0
  | .storeBcd _ => 3
  | .storeRegs x => x.val + 1
  | .loadRegs x => x.val + 1
  | .undefinedNop _ => 0

/-- The fault an instruction must raise in the state it begins to execute in, by the table of R181; `noFault` when none. -/
def faultDue (i : Instr) (s : State) : FaultReason :=
  match i with
  | .call _ => if s.sp.val = 16 then .stackOverflow else .noFault
  | .ret _ => if s.sp.val = 0 then .stackUnderflow else .noFault
  | .skipIfKey x => if 15 < (s.reg x).toNat then .keyIndexOutOfRange else .noFault
  | .skipIfNotKey x => if 15 < (s.reg x).toNat then .keyIndexOutOfRange else .noFault
  | i => if 0 < dataBytes i ∧ 0x1000 < s.index.toNat + dataBytes i then .memoryAddressOutOfRange else .noFault

/-- Whether the sprite of `draw x y n` in `s` has a set bit on the cell at row `r`, column `c` of the display (R101): row `r - y0`
of the sprite, bit 7 at column `x0`. Cells beyond row 31 or column 63 are no cells, which is the clipping. -/
def spriteCovers (s : State) (x y : RegNum) (n : BitVec 4) (r : Fin 32) (c : Fin 64) : Prop :=
  let x0 := (s.reg x).toNat % 64
  let y0 := (s.reg y).toNat % 32
  y0 ≤ r.val ∧ r.val < y0 + n.toNat ∧ x0 ≤ c.val ∧ c.val < x0 + 8 ∧
    (s.mem.read (s.index.toNat + (r.val - y0))).getLsbD (7 - (c.val - x0)) = true

/-- What holds of the machine between steps (R35; the memory's canonical form is the model's own). -/
structure Inv (s : State) : Prop where
  /-- The memory list is in canonical form. -/
  memCanonical : s.mem.wf = true
  /-- `fault_reason` is 0 exactly while RUNNING (R32, R35 (c)). -/
  reasonIffFaulted : s.runState = .running ↔ s.faultReason = .noFault
  /-- R35 (e). -/
  pcBound : s.pc.toNat ≤ 0x10FE
  /-- R35 (f): every return address held is even and in 2..4096. -/
  returnAddresses : ∀ i : Fin 16, i.val < s.sp.val →
    2 ≤ s.stack[i].toNat ∧ s.stack[i].toNat ≤ 4096 ∧ s.stack[i].toNat % 2 = 0

/-- The states a host can bring the machine to (R215, R217): reset; one load before the first step; then keys, random bytes and steps,
and a reset at any time (which is the first case again). -/
inductive Reachable : State → Prop where
  | reset : Reachable State.reset
  | loaded (image : List Byte) (t : State) (h : load image State.reset = .ok t) : Reachable t
  | keys (k : BitVec 16) (s : State) (h : Reachable s) : Reachable (setKeys k s)
  | rnd (r : Byte) (s : State) (h : Reachable s) : Reachable (supplyRnd r s)
  | stepped (s t : State) (h : Reachable s) (hs : step s = .next t) : Reachable t

end Sys2Proof.Machine
end

