-- ==== Sys2Proof/WellFormed.lean ====
section
/-! DEFINITION. Well-formed instructions. Every operand but one has a type whose values are exactly those its field can
hold; the one check left is that the word of an `undefinedNop` is one of the 13392 words outside the map (R78). -/

namespace Sys2Proof

/-- The words that decode to undefined-nop, listed category by category as 30_encoding.md R78 lists them. -/
def undefinedWord (w : Word) : Bool :=
  let n := nOf w
  let kk := kkOf w
  if catOf w = 0x0 then !(n == 0x0 || n == 0xE)
  else if catOf w = 0x8 then
    n == 0x8 || n == 0x9 || n == 0xA || n == 0xB || n == 0xC || n == 0xD || n == 0xF
  else if catOf w = 0xE then !(kk == 0x9E || kk == 0xA1)
  else if catOf w = 0xF then
    !(kk == 0x07 || kk == 0x0A || kk == 0x15 || kk == 0x18 || kk == 0x1E || kk == 0x29 || kk == 0x33 || kk == 0x55
      || kk == 0x65)
  else false

/-- Well-formedness: an `undefinedNop` carries a word outside the opcode map (R78); nothing else is left to check. -/
def Instr.wf : Instr → Bool
  | .clearDisplay _ => true
  | .ret _ => true
  | .jump _ => true
  | .call _ => true
  | .skipEqImm _ _ => true
  | .skipNeImm _ _ => true
  | .skipEqReg _ _ _ => true
  | .loadImm _ _ => true
  | .addImm _ _ => true
  | .copy _ _ => true
  | .orReg _ _ => true
  | .andReg _ _ => true
  | .xorReg _ _ => true
  | .addReg _ _ => true
  | .subReg _ _ => true
  | .shiftRight _ _ => true
  | .subRegRev _ _ => true
  | .shiftLeft _ _ => true
  | .skipNeReg _ _ _ => true
  | .setIndex _ => true
  | .jumpOffset _ => true
  | .randomAnd _ _ => true
  | .draw _ _ _ => true
  | .skipIfKey _ => true
  | .skipIfNotKey _ => true
  | .getDelay _ => true
  | .waitKey _ => true
  | .setDelay _ => true
  | .setSound _ => true
  | .addIndex _ => true
  | .fontChar _ => true
  | .storeBcd _ => true
  | .storeRegs _ => true
  | .loadRegs _ => true
  | .undefinedNop w => undefinedWord w

end Sys2Proof
end

