-- ==== Sys2Proof/Certificates/Slice0/Obligations.lean ====
section
/-! DEFINITION. The statements for the provers, in the order of OBLIGATIONS.json: encoding, memory, the step and its faults, the
instructions by family, whole-machine rules, what cannot be observed, invariants, the host. Numbers in brackets are rules of spec/.
Where a statement rests on a decision (D…) or an inference of the spec, or on a choice of the model (log …), its docstring says so. -/

open Sys2Proof Sys2Proof.Machine

/-! ## Encoding (30_encoding.md) -/

/-- Every well-formed instruction, with every operand at every value its field admits, is read back from its word. Rests on the opcode
numbers, which are the spec's decision D2. -/
def Obligations.DecodeInvertsEncode : Prop :=
  ∀ i : Instr, i.wf = true → decode (encode i) = i

/-- Every word decodes to a well-formed instruction that is written as exactly that word, and its two bytes, high byte first, decode the
same way with whatever follows left over [R52, R73]. Rests on D2, and on the model keeping ignored bits as operands (log 12). -/
def Obligations.EncodeInvertsDecode : Prop :=
  ∀ (w : Word) (rest : List Byte), (decode w).wf = true ∧ encode (decode w) = w ∧
    decodeBytes (encodeBytes (decode w) ++ rest) = .ok (decode w, rest)

/-- The decode procedure [R75] computes the opcode map [R76]: a word selects a row exactly when it decodes to the row's instruction, and
selects no row exactly when it decodes to the no-op. Rests on D2 and D3. -/
def Obligations.DecodeFollowsOpcodeMap : Prop :=
  ∀ w : Word, (∀ row ∈ opcodeMap, row.selects w ↔ (decode w).mnemonic = row.mnemonic) ∧
    ((∀ row ∈ opcodeMap, ¬ row.selects w) ↔ (decode w).mnemonic = "undefined-nop")

/-- The words that decode to undefined-nop are exactly those listed category by category in R78, which rests on D1, D2 and D3; and the
no-op carries its word, which is the model's own choice: R170 gives it no operand (log 12). -/
def Obligations.NoOpWordsAreThoseListed : Prop :=
  ∀ w : Word, (undefinedWord w = true ↔ decode w = .undefinedNop w) ∧ ∀ v, decode w = .undefinedNop v → v = w

/-- Sample words: the source's own three (0x00E0, 0x6A3C, 0x7A04) and one or more of each family from 95_test_vectors.md, the zero word
and words with ignored nibbles among them [R77, R79]. Rests on D2 and D3. -/
def Obligations.SampleWordsDecode : Prop :=
  decode 0x00E0 = .clearDisplay 0x0E ∧ decode 0x6A3C = .loadImm 0xA 0x3C ∧ decode 0x7A04 = .addImm 0xA 0x04 ∧
  decode 0x0000 = .clearDisplay 0x00 ∧ decode 0x012E = .ret 0x12 ∧ decode 0x2300 = .call 0x300 ∧
  decode 0x512F = .skipEqReg 0x1 0x2 0xF ∧ decode 0x8125 = .subReg 0x1 0x2 ∧ decode 0xD013 = .draw 0x0 0x1 0x3 ∧
  decode 0xFA33 = .storeBcd 0xA ∧ decode 0xF10A = .waitKey 0x1 ∧ decode 0x8128 = .undefinedNop 0x8128

/-! ## Memory (20_memory.md) -/

/-- The canonical form is canonical: two memories in it that read alike at each of the 4096 addresses are the same list. The model's
representation (log 9). -/
def Obligations.MemoriesReadingAlikeAreEqual : Prop :=
  ∀ m m' : Memory, m.wf = true → m'.wf = true → (∀ a, a ≤ 0xFFF → m.read a = m'.read a) → m = m'

/-- A store into the very next word is what is fetched next, with no barrier [R61, an inference of the spec]. -/
def Obligations.StoredWordIsFetchedNext : Prop :=
  ∀ (s : State) (x : RegNum), s.mem.wf = true → AboutToExecute s (.storeRegs x) → 1 ≤ x.val →
    s.index.toNat = s.pc.toNat + 2 → s.index.toNat + x.val ≤ 0xFFF →
    ∃ t, step s = .next t ∧ t.runState = .running ∧ t.pc = s.index ∧ t.fetchWord = bigEndian (s.reg 0) (s.reg 1)

/-! ## The step and its faults (30_encoding.md, 60_exceptions.md) -/

/-- One step [R70]: nothing when FAULTED (D16); the program-counter fault; otherwise the instruction that the two bytes at `pc` decode to,
executed with `ir` latched and `pc` advanced by 2, then a fault's roll-back (D15) or both timers' tick. The two fields of the model's
own (log 1) move on in a completed step. -/
def Obligations.StepRunsTheDecodedInstruction : Prop :=
  ∀ s : State,
    (s.runState = .faulted → step s = .next s) ∧
    (s.runState = .running → (4094 < s.pc.toNat ∨ s.pc.toNat % 2 = 1) →
      step s = .next { s with runState := .faulted, faultReason := .invalidProgramCounter }) ∧
    (∀ (i : Instr) (rest : List Byte), s.runState = .running → s.pc.toNat ≤ 4094 → s.pc.toNat % 2 = 0 →
      decodeBytes [s.mem.read s.pc.toNat, s.mem.read (s.pc.toNat + 1)] = .ok (i, rest) → i.wf = true →
      step s =
        match exec i { s with ir := bigEndian (s.mem.read s.pc.toNat) (s.mem.read (s.pc.toNat + 1)), pc := s.pc + 2 } with
        | .next t =>
          .next (if t.runState = .faulted then { s with runState := .faulted, faultReason := t.faultReason }
            else { t with
              dt := if t.dt = 0 then 0 else t.dt - 1
              st := if t.st = 0 then 0 else t.st - 1
              rndIn := none
              draws := t.draws + 1 })
        | .fault f => .fault f
        | .refused r => .refused r)

/-- A RUNNING machine whose `pc` is odd or above 4094 goes to FAULTED with reason InvalidProgramCounter and changes nothing else: no
fetch, no latch, no advance, no tick [R182]. -/
def Obligations.BadProgramCounterFaults : Prop :=
  ∀ s : State, s.runState = .running → (4094 < s.pc.toNat ∨ s.pc.toNat % 2 = 1) →
    ∃ t, step s = .next t ∧ t.runState = .faulted ∧ t.faultReason = .invalidProgramCounter ∧
      UnchangedExcept [.runState, .faultReason] s t

/-- No state and no instruction stops the machine without a next state: whatever the word, the step answers a next state, and what `Step`
returned is Ok or the fault that state records. The model's way of taking a fault (log 5), of R183 and R188 (D15, D16). -/
def Obligations.EveryStepAnswersANextState : Prop :=
  ∀ s : State, ∃ t, step s = .next t ∧
    ((t.runState = .running ∧ stepResult t = .ok) ∨ (t.runState = .faulted ∧ stepResult t = .faulted t.faultReason))

/-- A machine that executes an instruction ends the step FAULTED exactly when the table of R181 says so of that instruction, and with that
reason; each instruction has at most one [R189]. Rests on D5, D8, D9, D15. -/
def Obligations.FaultsAreExactlyThoseDue : Prop :=
  ∀ (s : State) (i : Instr), AboutToExecute s i →
    ∃ t, step s = .next t ∧ (t.runState = .faulted ↔ faultDue i s ≠ .noFault) ∧
      (t.runState = .faulted → t.faultReason = faultDue i s)

/-- Every fault is precise: a step that ends FAULTED from RUNNING leaves everything but `run_state` and `fault_reason` as it was before the
step [R183]. Rests on D15. -/
def Obligations.FaultsArePrecise : Prop :=
  ∀ s t : State, s.runState = .running → step s = .next t → t.runState = .faulted →
    UnchangedExcept [.runState, .faultReason] s t

/-- FAULTED is terminal: through any number of turns, whatever keys and random bytes the host supplies, only the keys (and the model's own
field for the random byte) change [R188, R35 (d)]. Rests on D16. -/
def Obligations.FaultedIsTerminal : Prop :=
  ∀ (turns : List (BitVec 16 × Byte)) (s : State), s.runState = .faulted →
    ∃ t, runTurns turns s = .next t ∧ UnchangedExcept [.key, .rndIn] s t

/-- The codes of `fault_reason`, as R181 lists them. Rests on D15. -/
def Obligations.FaultCodesAreAsListed : Prop :=
  FaultReason.noFault.code = 0 ∧ FaultReason.invalidProgramCounter.code = 1 ∧ FaultReason.stackOverflow.code = 2 ∧
  FaultReason.stackUnderflow.code = 3 ∧ FaultReason.memoryAddressOutOfRange.code = 4 ∧ FaultReason.keyIndexOutOfRange.code = 5

/-- Both timers count down by one, never below zero, as the last thing of every completed step, after whatever the instruction stored in
them; get-delay reads `dt` before that; a faulting step does not tick [R72, whose points (a) to (d) are inferences of the spec]. -/
def Obligations.TimersTickOncePerCompletedStep : Prop :=
  ∀ (s t : State) (i : Instr), AboutToExecute s i → step s = .next t →
    (t.runState = .running →
      t.dt.toNat = (match i with | .setDelay x => (s.reg x).toNat | _ => s.dt.toNat) - 1 ∧
      t.st.toNat = (match i with | .setSound x => (s.reg x).toNat | _ => s.st.toNat) - 1 ∧
      ∀ x, i = .getDelay x → t.reg x = s.dt) ∧
    (t.runState = .faulted → t.dt = s.dt ∧ t.st = s.st)

/-! ## Display (40_display.md) -/

/-- clear-display turns every cell off and changes nothing else, whatever its ignored nibbles [R100]. -/
def Obligations.ClearDisplayTurnsEveryCellOff : Prop :=
  ∀ (z : BitVec 8) (s : State), ∃ t, exec (.clearDisplay z) s = .next t ∧
    (∀ (r : Fin 32) (c : Fin 64), t.fb[r][c] = false) ∧ UnchangedExcept [.fb] s t

/-- draw toggles exactly the cells under the sprite's set bits, sets `x[15]` to 1 when one of them was on and to 0 otherwise (the
coordinates being read before), and changes nothing else; with an address above 0xFFF it raises MemoryAddressOutOfRange; with `N = 0` it
only clears `x[15]` [R101]. Rests on D7, D8 and D20. -/
def Obligations.DrawTogglesTheCoveredCells : Prop :=
  ∀ (x y : RegNum) (n : BitVec 4) (s : State),
    (n.toNat = 0 ∨ s.index.toNat + n.toNat - 1 ≤ 0xFFF →
      ∃ t, exec (.draw x y n) s = .next t ∧
        (∀ r c, (spriteCovers s x y n r c → t.fb[r][c] = !s.fb[r][c]) ∧
          (¬ spriteCovers s x y n r c → t.fb[r][c] = s.fb[r][c])) ∧
        ((∃ r c, spriteCovers s x y n r c ∧ s.fb[r][c] = true) → t.reg 15 = 1) ∧
        ((¬ ∃ r c, spriteCovers s x y n r c ∧ s.fb[r][c] = true) → t.reg 15 = 0) ∧
        (∀ q : RegNum, q ≠ 15 → t.reg q = s.reg q) ∧ UnchangedExcept [.fb, .regs] s t) ∧
    (n.toNat ≠ 0 → 0xFFF < s.index.toNat + n.toNat - 1 → RaisesOnly (.draw x y n) s .memoryAddressOutOfRange)

/-- Drawing the same sprite at the same place twice restores the framebuffer, and the second draw leaves `x[15] = 1` exactly when the first
turned a cell on [the source's property in R101; the second half is the spec's inference]. The coordinates must not be in `x[15]`, as R101
says. -/
def Obligations.DrawingTwiceRestoresTheDisplay : Prop :=
  ∀ (x y : RegNum) (n : BitVec 4) (s : State), x ≠ 15 → y ≠ 15 →
    (n.toNat = 0 ∨ s.index.toNat + n.toNat - 1 ≤ 0xFFF) →
    ∃ t u, exec (.draw x y n) s = .next t ∧ exec (.draw x y n) t = .next u ∧ u.fb = s.fb ∧
      (u.reg 15 = 1 ↔ ∃ (r : Fin 32) (c : Fin 64), s.fb[r][c] = false ∧ t.fb[r][c] = true)

/-! ## Control flow (41_control_flow.md) -/

/-- return takes the last return address into `pc` and one off `sp`, and keeps the slot; with none held it raises StackUnderflow [R110].
Rests on D5. -/
def Obligations.ReturnPopsTheReturnAddress : Prop :=
  ∀ (z : BitVec 8) (s : State),
    (∀ k : Fin 16, k.val + 1 = s.sp.val →
      ∃ t, exec (.ret z) s = .next t ∧ t.pc = s.stack[k] ∧ t.sp.val = k.val ∧ UnchangedExcept [.pc, .sp] s t) ∧
    (s.sp.val = 0 → RaisesOnly (.ret z) s .stackUnderflow)

/-- call pushes the advanced `pc` and goes to `NNN`; with sixteen addresses held it raises StackOverflow [R112]. Rests on D5. -/
def Obligations.CallPushesTheAdvancedProgramCounter : Prop :=
  ∀ (nnn : BitVec 12) (s : State),
    (∀ k : Fin 16, k.val = s.sp.val →
      ∃ t, exec (.call nnn) s = .next t ∧ t.pc.toNat = nnn.toNat ∧ t.sp.val = k.val + 1 ∧ t.stack[k] = s.pc ∧
        (∀ j : Fin 16, j ≠ k → t.stack[j] = s.stack[j]) ∧ UnchangedExcept [.pc, .sp, .stack] s t) ∧
    (s.sp.val = 16 → RaisesOnly (.call nnn) s .stackOverflow)

/-- A return undoes a call: wherever `pc` stands when the return executes, it comes back to the address after the call, with every other
item as it was, the slots the call did not use among them [R110, R112; the source's example]. Rests on D5. -/
def Obligations.ReturnUndoesCall : Prop :=
  ∀ (nnn : BitVec 12) (z : BitVec 8) (pc : Word) (s : State), s.sp.val < 16 →
    ∃ t u, exec (.call nnn) s = .next t ∧ exec (.ret z) { t with pc := pc } = .next u ∧
      u.pc = s.pc ∧ u.sp = s.sp ∧ (∀ j : Fin 16, j.val ≠ s.sp.val → u.stack[j] = s.stack[j]) ∧
      UnchangedExcept [.stack] s u

/-- jump leaves `pc = NNN` and jump-offset `pc = x[0] + NNN`, the exact sum, odd or too large targets included; nothing else changes
[R111, R117]. That the sum is not masked to 12 bits rests on D17. -/
def Obligations.JumpsLeaveTheirTarget : Prop :=
  ∀ (nnn : BitVec 12) (s : State),
    WritesOnlyPc (.jump nnn) s (BitVec.ofNat 16 nnn.toNat) ∧
    ∃ t, exec (.jumpOffset nnn) s = .next t ∧ t.pc.toNat = (s.reg 0).toNat + nnn.toNat ∧ UnchangedExcept [.pc] s t

/-- The four compare skips advance `pc` by 2 more exactly when their condition holds, and change nothing else, whatever the ignored nibble
[R113, R114, R115, R116]. The addition being modulo 65536 rests on D17. -/
def Obligations.CompareSkipsAdvanceByTwoMore : Prop :=
  ∀ (x y : RegNum) (kk : Byte) (z : BitVec 4) (s : State),
    WritesOnlyPc (.skipEqImm x kk) s (if (s.reg x).toNat = kk.toNat then s.pc + 2 else s.pc) ∧
    WritesOnlyPc (.skipNeImm x kk) s (if (s.reg x).toNat ≠ kk.toNat then s.pc + 2 else s.pc) ∧
    WritesOnlyPc (.skipEqReg x y z) s (if (s.reg x).toNat = (s.reg y).toNat then s.pc + 2 else s.pc) ∧
    WritesOnlyPc (.skipNeReg x y z) s (if (s.reg x).toNat ≠ (s.reg y).toNat then s.pc + 2 else s.pc)

/-! ## Arithmetic and logic (42_arith_logic.md) -/

/-- load-imm, add-imm (8-bit wrap-around), copy, or, and, xor write their result to `Vx` and nothing else: no flag, also when an add-imm
passes 255 [R130, R131, R132, R133, R134, R135]. -/
def Obligations.PlainResultsWriteNoFlag : Prop :=
  ∀ (x y : RegNum) (kk : Byte) (s : State),
    WritesOnlyReg (.loadImm x kk) s x kk ∧
    WritesOnlyReg (.addImm x kk) s x (BitVec.ofNat 8 (((s.reg x).toNat + kk.toNat) % 256)) ∧
    WritesOnlyReg (.copy x y) s x (s.reg y) ∧
    WritesOnlyReg (.orReg x y) s x (s.reg x ||| s.reg y) ∧
    WritesOnlyReg (.andReg x y) s x (s.reg x &&& s.reg y) ∧
    WritesOnlyReg (.xorReg x y) s x (s.reg x ^^^ s.reg y)

/-- add-reg, sub-reg and sub-reg-rev: the result modulo 256 in `Vx`, then in `x[15]` the carry, or whether the minuend was strictly
greater; operands are read first and with `X = 15` the flag remains [R136, R137, R139, R143]. The case `X = 15` rests on D7. -/
def Obligations.AddAndSubtractWithFlag : Prop :=
  ∀ (x y : RegNum) (s : State),
    WritesRegThenFlag (.addReg x y) s x (BitVec.ofNat 8 (((s.reg x).toNat + (s.reg y).toNat) % 256))
      (255 < (s.reg x).toNat + (s.reg y).toNat) ∧
    WritesRegThenFlag (.subReg x y) s x (BitVec.ofNat 8 (((s.reg x).toNat + 256 - (s.reg y).toNat) % 256))
      ((s.reg y).toNat < (s.reg x).toNat) ∧
    WritesRegThenFlag (.subRegRev x y) s x (BitVec.ofNat 8 (((s.reg y).toNat + 256 - (s.reg x).toNat) % 256))
      ((s.reg x).toNat < (s.reg y).toNat)

/-- shift-right and shift-left shift `Vx` by one, whatever `Y`, and leave the bit shifted out in `x[15]` [R138, R140, R143]. The flag of
shift-left is the spec's decision D6 and the case `X = 15` rests on D7. -/
def Obligations.ShiftsLeaveTheBitShiftedOut : Prop :=
  ∀ (x y : RegNum) (s : State),
    WritesRegThenFlag (.shiftRight x y) s x (BitVec.ofNat 8 ((s.reg x).toNat / 2)) ((s.reg x).toNat % 2 = 1) ∧
    WritesRegThenFlag (.shiftLeft x y) s x (BitVec.ofNat 8 (2 * (s.reg x).toNat % 256)) (128 ≤ (s.reg x).toNat)

/-- random-and leaves `rnd & KK` in `Vx` for every byte the host supplies, and never a bit that `KK` lacks, whatever the byte; nothing else
changes [R141]. That `rnd` is a free input of the step rests on D11 (log 1). -/
def Obligations.RandomAndMasksTheSuppliedByte : Prop :=
  ∀ (x : RegNum) (kk : Byte) (s : State),
    (∀ r : Byte, WritesOnlyReg (.randomAnd x kk) (supplyRnd r s) x (r &&& kk)) ∧
    ∃ v : Byte, v &&& ~~~kk = 0 ∧ WritesOnlyReg (.randomAnd x kk) s x v

/-! ## Index register and memory transfers (43_index_memory.md) -/

/-- set-index leaves `index = NNN` and font-char `index = 0x50 + 5 * Vx` on the whole byte; nothing else changes [R150, R152]. -/
def Obligations.SetIndexAndFontCharWriteIndex : Prop :=
  ∀ (nnn : BitVec 12) (x : RegNum) (s : State),
    (∃ t, exec (.setIndex nnn) s = .next t ∧ t.index.toNat = nnn.toNat ∧ UnchangedExcept [.index] s t) ∧
    (∃ t, exec (.fontChar x) s = .next t ∧ t.index.toNat = 0x50 + 5 * (s.reg x).toNat ∧ UnchangedExcept [.index] s t)

/-- add-index adds the byte to the 16-bit `index` modulo 65536, with no 12-bit mask and no flag [R151]. The modulus rests on D17. -/
def Obligations.AddIndexWrapsAtSixteenBits : Prop :=
  ∀ (x : RegNum) (s : State), ∃ t, exec (.addIndex x) s = .next t ∧
    t.index.toNat = (s.index.toNat + (s.reg x).toNat) % 65536 ∧ UnchangedExcept [.index] s t

/-- store-bcd leaves the hundreds, tens and ones of `Vx` at `index`, `index + 1`, `index + 2` and changes no other byte and nothing else;
with `index + 2` above 0xFFF it raises MemoryAddressOutOfRange and stores nothing [R153]. Rests on D8. -/
def Obligations.StoreBcdStoresThreeDigits : Prop :=
  ∀ (x : RegNum) (s : State), s.mem.wf = true →
    (s.index.toNat + 2 ≤ 0xFFF →
      ∃ t, exec (.storeBcd x) s = .next t ∧
        (t.mem.read s.index.toNat).toNat = (s.reg x).toNat / 100 ∧
        (t.mem.read (s.index.toNat + 1)).toNat = (s.reg x).toNat / 10 % 10 ∧
        (t.mem.read (s.index.toNat + 2)).toNat = (s.reg x).toNat % 10 ∧
        (∀ a, a < s.index.toNat ∨ s.index.toNat + 2 < a → t.mem.read a = s.mem.read a) ∧ UnchangedExcept [.mem] s t) ∧
    (0xFFF < s.index.toNat + 2 → RaisesOnly (.storeBcd x) s .memoryAddressOutOfRange)

/-- store-regs leaves `x[0]` to `x[X]` at `index` to `index + X` and changes no other byte and nothing else; with `index + X` above 0xFFF
it raises MemoryAddressOutOfRange and stores nothing [R154]. Rests on D8. -/
def Obligations.StoreRegsStoresTheRange : Prop :=
  ∀ (x : RegNum) (s : State), s.mem.wf = true →
    (s.index.toNat + x.val ≤ 0xFFF →
      ∃ t, exec (.storeRegs x) s = .next t ∧
        (∀ q : RegNum, q ≤ x → t.mem.read (s.index.toNat + q.val) = s.reg q) ∧
        (∀ a, a < s.index.toNat ∨ s.index.toNat + x.val < a → t.mem.read a = s.mem.read a) ∧ UnchangedExcept [.mem] s t) ∧
    (0xFFF < s.index.toNat + x.val → RaisesOnly (.storeRegs x) s .memoryAddressOutOfRange)

/-- load-regs loads `x[0]` to `x[X]` from `index` to `index + X`, keeps the other registers and changes nothing else; with `index + X`
above 0xFFF it raises MemoryAddressOutOfRange and loads nothing [R155]. Rests on D8. -/
def Obligations.LoadRegsLoadsTheRange : Prop :=
  ∀ (x : RegNum) (s : State),
    (s.index.toNat + x.val ≤ 0xFFF →
      ∃ t, exec (.loadRegs x) s = .next t ∧
        (∀ q : RegNum, q ≤ x → t.reg q = s.mem.read (s.index.toNat + q.val)) ∧
        (∀ q : RegNum, x < q → t.reg q = s.reg q) ∧ UnchangedExcept [.regs] s t) ∧
    (0xFFF < s.index.toNat + x.val → RaisesOnly (.loadRegs x) s .memoryAddressOutOfRange)

/-- A store-regs followed by a load-regs with the same `X` and the same `index` brings `x[0]` to `x[X]` back, whatever the registers held
in between; `x[X + 1]` and up are not touched [the source's property in R154, read as 90_conflicts.md C6 reads it]. -/
def Obligations.LoadRegsRestoresWhatStoreRegsStored : Prop :=
  ∀ (x : RegNum) (regs : Vector Byte 16) (s : State), s.mem.wf = true → s.index.toNat + x.val ≤ 0xFFF →
    ∃ t u, exec (.storeRegs x) s = .next t ∧ exec (.loadRegs x) { t with x := regs } = .next u ∧
      (∀ q : RegNum, q ≤ x → u.reg q = s.reg q) ∧ (∀ q : RegNum, x < q → u.reg q = regs[q])

/-! ## Timers and keypad (44_timer_input.md) -/

/-- skip-if-key and skip-if-not-key skip when key `Vx` is down or up, and change nothing else, the key least of all; with `Vx` above 15
they raise KeyIndexOutOfRange [R160, R161]. Rests on D9. -/
def Obligations.KeySkipsTestTheLevel : Prop :=
  ∀ (x : RegNum) (s : State),
    (∀ k : KeyNum, k.val = (s.reg x).toNat →
      WritesOnlyPc (.skipIfKey x) s (if s.key[k] = true then s.pc + 2 else s.pc) ∧
      WritesOnlyPc (.skipIfNotKey x) s (if s.key[k] = false then s.pc + 2 else s.pc)) ∧
    (15 < (s.reg x).toNat →
      RaisesOnly (.skipIfKey x) s .keyIndexOutOfRange ∧ RaisesOnly (.skipIfNotKey x) s .keyIndexOutOfRange)

/-- get-delay copies `dt` to `Vx`, set-delay copies `Vx` to `dt`, set-sound copies `Vx` to `st`, each changing nothing else; and since the
tick follows in the same step, a step that executes one ends with `dt` one below the value read, with `dt = Vx - 1`, or with
`st = Vx - 1`, never below zero [R162, R164, R165; R72 (a) and (b), inferences of the spec]. -/
def Obligations.TimerMovesCopyTheByte : Prop :=
  ∀ (x : RegNum) (s : State),
    WritesOnlyReg (.getDelay x) s x s.dt ∧
    (∃ t, exec (.setDelay x) s = .next t ∧ t.dt = s.reg x ∧ UnchangedExcept [.dt] s t) ∧
    (∃ t, exec (.setSound x) s = .next t ∧ t.st = s.reg x ∧ UnchangedExcept [.st] s t) ∧
    (AboutToExecute s (.getDelay x) → ∃ t, step s = .next t ∧ t.reg x = s.dt ∧ t.dt.toNat = s.dt.toNat - 1) ∧
    (AboutToExecute s (.setDelay x) → ∃ t, step s = .next t ∧ t.dt.toNat = (s.reg x).toNat - 1) ∧
    (AboutToExecute s (.setSound x) → ∃ t, step s = .next t ∧ t.st.toNat = (s.reg x).toNat - 1)

/-- wait-key puts the lowest pressed key among 0..0xE in `Vx`; with none of them pressed, key 0xF or not, it takes `pc` back by 2; nothing
else changes, and no key is cleared [R163]. The range and the choice of the lowest rest on D10 (log 4). -/
def Obligations.WaitKeyTakesTheLowestKeyOrRewinds : Prop :=
  ∀ (x : RegNum) (s : State),
    (∀ k : KeyNum, k.val ≤ 0xE → s.key[k] = true → (∀ j : KeyNum, j < k → s.key[j] = false) →
      WritesOnlyReg (.waitKey x) s x (BitVec.ofNat 8 k.val)) ∧
    ((∀ k : KeyNum, k.val ≤ 0xE → s.key[k] = false) → WritesOnlyPc (.waitKey x) s (s.pc - 2))

/-- The wait is a busy-poll of any length: as long as the host presses none of the keys 0..0xE, each step fetches the same wait-key again;
`pc` stays, the timers tick, and nothing else changes but `ir` (the same word), the keys and the model's own random input
[R163, R72 (c)]. Rests on D10. -/
def Obligations.WaitKeyPollsUntilAKeyIsPressed : Prop :=
  ∀ (turns : List (BitVec 16 × Byte)) (x : RegNum) (s : State), AboutToExecute s (.waitKey x) →
    (∀ turn ∈ turns, turn.1.toNat % 0x8000 = 0) →
    ∃ t, runTurns turns s = .next t ∧ AboutToExecute t (.waitKey x) ∧
      t.dt.toNat = s.dt.toNat - turns.length ∧ t.st.toNat = s.st.toNat - turns.length ∧
      UnchangedExcept [.ir, .dt, .st, .key, .rndIn, .draws] s t

/-! ## Words outside the map (45_undefined_word.md) -/

/-- undefined-nop changes nothing, and the step around it is an ordinary completed step: the word is latched, `pc` advances by 2, the timers
tick, and nothing else changes but the model's own random input [R170]. -/
def Obligations.UndefinedWordsDoNothing : Prop :=
  ∀ (w : Word) (s : State),
    exec (.undefinedNop w) s = .next s ∧
    (AboutToExecute s (.undefinedNop w) →
      ∃ t, step s = .next t ∧ t.ir = w ∧ t.pc = s.pc + 2 ∧ t.dt.toNat = s.dt.toNat - 1 ∧ t.st.toNat = s.st.toNat - 1 ∧
        UnchangedExcept [.ir, .pc, .dt, .st, .rndIn, .draws] s t)

/-! ## Whole-machine rules (10_state.md) -/

/-- In a completed step each item of the state changes only through an instruction that the table of R20 lists as its writer, or through
the cycle itself: memory only by the two stores, the stack only by call, the framebuffer only by clear-display and draw, the keys by
nothing. The table's row for `fault_reason` rests on D15. -/
def Obligations.EachItemChangesOnlyByItsWriters : Prop :=
  ∀ (s t : State) (i : Instr), AboutToExecute s i → step s = .next t → t.runState = .running →
    UnchangedExcept (writtenBy i ++ writtenByCycle) s t

/-- A register changes only as a destination, as `x[15]` written as a flag by the six flag writers, or in the range of a load-regs
[R23, R24]; and each of the six leaves 0 or 1 in `x[15]`. The flag remaining when `X = 15` rests on D7. -/
def Obligations.RegistersChangeOnlyAsListed : Prop :=
  ∀ (s t : State) (i : Instr), AboutToExecute s i → step s = .next t →
    (∀ q : RegNum, ¬ mayWriteReg i q → t.reg q = s.reg q) ∧
    (t.runState = .running →
      (∃ x y, i = .addReg x y ∨ i = .subReg x y ∨ i = .shiftRight x y ∨ i = .subRegRev x y ∨ i = .shiftLeft x y ∨
        ∃ n, i = .draw x y n) → t.reg 15 = 0 ∨ t.reg 15 = 1)

/-- Where a completed step leaves `pc`: two on; or two or four on for a skip; the target of a transfer; its own address for a wait-key that
waits. No sum wraps [R26, part of it an inference of the spec]. -/
def Obligations.ProgramCounterAfterACompletedStep : Prop :=
  ∀ (s t : State) (i : Instr), AboutToExecute s i → step s = .next t → t.runState = .running →
    match i with
    | .jump nnn => t.pc.toNat = nnn.toNat
    | .call nnn => t.pc.toNat = nnn.toNat
    | .jumpOffset nnn => t.pc.toNat = (s.reg 0).toNat + nnn.toNat
    | .ret _ => ∃ k : Fin 16, k.val + 1 = s.sp.val ∧ t.pc = s.stack[k]
    | .skipEqImm _ _ => t.pc.toNat = s.pc.toNat + 2 ∨ t.pc.toNat = s.pc.toNat + 4
    | .skipNeImm _ _ => t.pc.toNat = s.pc.toNat + 2 ∨ t.pc.toNat = s.pc.toNat + 4
    | .skipEqReg _ _ _ => t.pc.toNat = s.pc.toNat + 2 ∨ t.pc.toNat = s.pc.toNat + 4
    | .skipNeReg _ _ _ => t.pc.toNat = s.pc.toNat + 2 ∨ t.pc.toNat = s.pc.toNat + 4
    | .skipIfKey _ => t.pc.toNat = s.pc.toNat + 2 ∨ t.pc.toNat = s.pc.toNat + 4
    | .skipIfNotKey _ => t.pc.toNat = s.pc.toNat + 2 ∨ t.pc.toNat = s.pc.toNat + 4
    | .waitKey _ => t.pc.toNat = s.pc.toNat ∨ t.pc.toNat = s.pc.toNat + 2
    | _ => t.pc.toNat = s.pc.toNat + 2

/-- `ir` holds the fetched word after every completed step, and nothing depends on what it held before: with another value there, a
completed step leaves the same state, and a step that faults leaves the same state but for that value [R31]. -/
def Obligations.IrIsWrittenAndNeverRead : Prop :=
  ∀ (s t : State) (v : Word), s.runState = .running → step s = .next t →
    (t.runState = .running → t.ir = s.fetchWord ∧ step { s with ir := v } = .next t) ∧
    (t.runState = .faulted → step { s with ir := v } = .next { t with ir := v })

/-! ## What cannot be observed -/

/-- The stack slots at and above `sp` cannot be observed: with other contents there, the step leaves the same state but for such slots
[R27]. That slots are used in this order rests on D5. -/
def Obligations.StaleStackSlotsAreUnobservable : Prop :=
  ∀ (s t : State) (other : Vector Word 16), (∀ j : Fin 16, j.val < s.sp.val → other[j] = s.stack[j]) →
    step s = .next t →
    ∃ left : Vector Word 16, step { s with stack := other } = .next { t with stack := left } ∧
      ∀ j : Fin 16, j.val < t.sp.val → left[j] = t.stack[j]

/-- No instruction reads `st`: with another value there, the step leaves the same state but for `st` [R28; 60_exceptions.md R194]. -/
def Obligations.SoundTimerIsUnobservable : Prop :=
  ∀ (s t : State) (v : Byte), step s = .next t → ∃ v', step { s with st := v } = .next { t with st := v' }

/-- The random byte reaches the state only through random-and: any other completed step ends in the same state whatever byte the host
supplies [R33, R141]. Rests on D11; the completed step using the byte up is the model's (log 1). -/
def Obligations.RandomByteReachesOnlyRandomAnd : Prop :=
  ∀ (s t : State) (i : Instr) (r : Byte), AboutToExecute s i → (∀ x kk, i ≠ .randomAnd x kk) →
    step s = .next t → t.runState = .running → step (supplyRnd r s) = .next t

/-! ## Invariants -/

/-- The state after reset meets the invariant. -/
def Obligations.ResetMeetsTheInvariant : Prop := Inv State.reset

/-- Every step keeps the invariant, from every state that meets it: memory in canonical form, a reason exactly while FAULTED, `pc` at most
0x10FE, every return address held even and in 2..4096 [R35, an inference of the spec; the memory's form is log 9]. -/
def Obligations.StepKeepsTheInvariant : Prop :=
  ∀ s t : State, Inv s → step s = .next t → Inv t

/-- Every state the host can reach, by reset, a load of any image, keys, random bytes and steps in any order the spec allows, meets the
invariant, and a step from it answers a next state [R215, R217, and R35, an inference of the spec]. The memory's canonical form in the
invariant (log 9) and that a step always answers a next state (log 5) are the model's choices. -/
def Obligations.ReachableStatesMeetTheInvariant : Prop :=
  ∀ s : State, Reachable s → Inv s ∧ ∃ t, step s = .next t

/-! ## Reset, load and the host (70_reset_and_hazards.md) -/

/-- The state after reset, item by item [R36, R210]: all zero and off but for the glyph table and `pc = 0x200`, RUNNING, code 0. Rests on
D12, D13, D14 and D15; the model's own two fields are left out (log 1). -/
def Obligations.ResetStateIsAsListed : Prop :=
  ∀ s : State, hostReset s = State.reset ∧
    (∀ a, a ≤ 0xFFF → State.reset.mem.read a =
      if 0x50 ≤ a ∧ a ≤ 0x9F then Config.glyphs.getD (a - 0x50) 0 else 0) ∧
    (∀ q : RegNum, State.reset.reg q = 0) ∧ State.reset.index = 0 ∧ State.reset.pc = 0x200 ∧
    (∀ j : Fin 16, State.reset.stack[j] = 0) ∧ State.reset.sp = 0 ∧ State.reset.dt = 0 ∧ State.reset.st = 0 ∧
    (∀ (r : Fin 32) (c : Fin 64), State.reset.fb[r][c] = false) ∧ (∀ k : KeyNum, State.reset.key[k] = false) ∧
    State.reset.ir = 0 ∧ State.reset.runState = .running ∧ State.reset.faultReason.code = 0

/-- Load copies an image that fits to 0x200 and up and changes nothing else; one of more than 3584 bytes is refused, and then there is no
new state [R212, R213]. The load base rests on D14. -/
def Obligations.LoadCopiesTheImageOrRefuses : Prop :=
  ∀ (image : List Byte) (s : State), s.mem.wf = true →
    (image.length ≤ 3584 → ∃ t, load image s = .ok t ∧
      (∀ (j : Nat) (h : j < image.length), t.mem.read (0x200 + j) = image[j]) ∧
      (∀ a, a < 0x200 ∨ 0x200 + image.length ≤ a → t.mem.read a = s.mem.read a) ∧ UnchangedExcept [.mem] s t) ∧
    (3584 < image.length → load image s = .error .doesNotFit)

/-- SetKeys replaces all sixteen flags by the bits of `k`, in RUNNING and in FAULTED, and changes nothing else; of two calls the last
counts; and no step changes a flag: it stays until the host clears it [R214]. -/
def Obligations.KeysChangeOnlyBySetKeys : Prop :=
  ∀ (k k' : BitVec 16) (s : State),
    (∀ j : KeyNum, (setKeys k s).key[j] = decide (k.toNat / 2 ^ j.val % 2 = 1)) ∧ UnchangedExcept [.key] s (setKeys k s) ∧
    setKeys k (setKeys k' s) = setKeys k s ∧ ∀ t, step s = .next t → t.key = s.key

/-- An instruction placed for the next step is what the next step fetches, and nothing but those two bytes changes when the machine could
fetch already. The model's interface (log 7, 8). -/
def Obligations.PlacedWordIsFetched : Prop :=
  ∀ (s : State) (w : Word), s.mem.wf = true →
    AboutToExecute (s.withFetchWord 16 w.toNat) (decode w) ∧ (s.withFetchWord 16 w.toNat).fetchWord = w ∧
    (s.runState = .running → s.pc.toNat ≤ 4094 → s.pc.toNat % 2 = 0 →
      UnchangedExcept [.mem] s (s.withFetchWord 16 w.toNat) ∧
      ∀ a, a ≠ s.pc.toNat → a ≠ s.pc.toNat + 1 → (s.withFetchWord 16 w.toNat).mem.read a = s.mem.read a)

/-- A program that runs off its end into zeroed memory clears the display on every step, changing no register, until `pc` passes 4094, and
then faults, whatever keys and random bytes the host supplies [R79, an inference of the spec]. -/
def Obligations.ZeroedMemoryClearsThenFaults : Prop :=
  ∀ (turns : List (BitVec 16 × Byte)) (k : BitVec 16) (r : Byte) (s : State), s.runState = .running →
    s.pc.toNat + 2 * turns.length = 4096 → (∀ a, s.pc.toNat ≤ a → a ≤ 0xFFF → s.mem.read a = 0) →
    ∃ t u, runTurns turns s = .next t ∧ t.runState = .running ∧ t.pc.toNat = 4096 ∧
      UnchangedExcept [.ir, .pc, .dt, .st, .fb, .key, .rndIn, .draws] s t ∧
      (turns ≠ [] → ∀ (i : Fin 32) (c : Fin 64), t.fb[i][c] = false) ∧
      turn k r t = .next u ∧ u.runState = .faulted ∧ u.faultReason = .invalidProgramCounter

/-! ## The open parameters (00_scope.md R6) -/

/-- At every value of `WAITKEY_LAST`, wait-key puts the lowest pressed key up to that value in `Vx`, or takes `pc` back by 2 when none of
them is pressed; nothing else changes [R6, R163]. That the lowest key wins rests on D10. -/
def Obligations.WaitKeyScansUpToItsParameter : Prop :=
  ∀ (last : KeyNum) (x : RegNum) (s : State),
    (∀ k : KeyNum, k ≤ last → s.key[k] = true → (∀ j : KeyNum, j < k → s.key[j] = false) →
      ∃ t, execWith last (.waitKey x) s = .next t ∧
        (∀ q : RegNum, t.reg q = if q = x then BitVec.ofNat 8 k.val else s.reg q) ∧ UnchangedExcept [.regs] s t) ∧
    ((∀ k : KeyNum, k ≤ last → s.key[k] = false) →
      ∃ t, execWith last (.waitKey x) s = .next t ∧ t.pc = s.pc - 2 ∧ UnchangedExcept [.pc] s t)

/-- A step at any value of `WAITKEY_LAST` is the machine's step unless it executes wait-key; and at the default it always is: every
statement about a step that executes no wait-key holds at every value [R6]. The default rests on D10 (log 4). -/
def Obligations.ParameterReachesOnlyWaitKey : Prop :=
  ∀ (last : KeyNum) (s : State),
    ((∀ x, ¬ AboutToExecute s (.waitKey x)) → stepWith last s = step s) ∧ stepWith Config.defaults.waitKeyLast s = step s

/-- At every value of `WAITKEY_LAST` a step answers a next state and keeps the invariant, from every state that meets it [R35, an inference
of the spec; the memory's form is log 9, the next state on a fault log 5]. -/
def Obligations.StepKeepsTheInvariantAtEveryParameter : Prop :=
  ∀ (last : KeyNum) (s : State), Inv s → ∃ t, stepWith last s = .next t ∧ Inv t

/-- The state after reset at every value of the parameters, with a load base as D14 asks: the glyph bytes at 0x050..0x09F and zero
elsewhere, `pc` at the load base, every other item as with the defaults, and the invariant holds; at the defaults it is the reset state
[R6, R36]. Rests on D12, D13, D14 (log 2, 3). -/
def Obligations.ResetAtEveryParameter : Prop :=
  (∀ p : Config.Parameters, Config.loadBaseOk p.loadBase = true →
    let r := resetWith p.glyphs.toList p.loadBase
    (∀ j : Fin 80, r.mem.read (0x50 + j.val) = p.glyphs[j]) ∧ (∀ a, a < 0x50 ∨ 0x9F < a → r.mem.read a = 0) ∧
      r.pc = p.loadBase ∧ UnchangedExcept [.mem, .pc] State.reset r ∧ Inv r) ∧
  resetWith Config.defaults.glyphs.toList Config.defaults.loadBase = State.reset
end

