-- ==== Sys2Proof/Laws/Display.lean ====
section
/-! SUPPORT. What the loops of draw leave: each cell is toggled exactly when a set bit of the sprite lies on it, and `hit` is set exactly
when a toggled cell was on before (40_display.md R101, corner case (e)). -/

namespace Sys2Proof.Machine

/-- The cell at row `r`, column `c` of a framebuffer. -/
abbrev cell (fb : Framebuffer) (r : Fin 32) (c : Fin 64) : Bool := fb[r][c]

/-- A set of cells toggled: `d'` is `d` with exactly the cells of `P` toggled, and `hit` set when one of them was on. -/
def Toggles (P : Fin 32 → Fin 64 → Prop) (d d' : Canvas) : Prop :=
  (∀ r c, (P r c → cell d'.1 r c = !cell d.1 r c) ∧ (¬ P r c → cell d'.1 r c = cell d.1 r c)) ∧
  (d'.2 = true ↔ d.2 = true ∨ ∃ r c, P r c ∧ cell d.1 r c = true)

theorem Toggles.congr {P Q : Fin 32 → Fin 64 → Prop} {d d' : Canvas} (h : Toggles P d d') (e : ∀ r c, P r c ↔ Q r c) :
    Toggles Q d d' := by
  have : P = Q := by funext r c; exact propext (e r c)
  exact this ▸ h

theorem Toggles.none (d : Canvas) : Toggles (fun _ _ => False) d d := by simp [Toggles]

/-- Two disjoint sets toggled one after the other are their union toggled. -/
theorem Toggles.trans {P Q : Fin 32 → Fin 64 → Prop} {d d' d'' : Canvas} (h : Toggles P d d') (h' : Toggles Q d' d'')
    (dis : ∀ r c, P r c → ¬ Q r c) : Toggles (fun r c => P r c ∨ Q r c) d d'' := by
  obtain ⟨h1, h2⟩ := h
  obtain ⟨h1', h2'⟩ := h'
  refine ⟨fun r c => ?_, ?_⟩
  · by_cases p : P r c
    · have q := dis r c p
      exact ⟨fun _ => by rw [(h1' r c).2 q, (h1 r c).1 p], fun n => absurd (.inl p) n⟩
    · by_cases q : Q r c
      · exact ⟨fun _ => by rw [(h1' r c).1 q, (h1 r c).2 p], fun n => absurd (.inr q) n⟩
      · exact ⟨fun n => by tauto, fun _ => by rw [(h1' r c).2 q, (h1 r c).2 p]⟩
  · rw [h2', h2]
    constructor
    · rintro ((h | ⟨r, c, p, on⟩) | ⟨r, c, q, on⟩)
      · exact .inl h
      · exact .inr ⟨r, c, .inl p, on⟩
      · have p : ¬ P r c := fun p => dis r c p q
        exact .inr ⟨r, c, .inr q, by rw [← (h1 r c).2 p]; exact on⟩
    · rintro (h | ⟨r, c, p | q, on⟩)
      · exact .inl (.inl h)
      · exact .inl (.inr ⟨r, c, p, on⟩)
      · have p : ¬ P r c := fun p => dis r c p q
        exact .inr ⟨r, c, q, by rw [(h1 r c).2 p]; exact on⟩

/-- One pixel toggles its cell when its bit is set and its place is on the display (R101). -/
theorem plot_toggles (bit : Bool) (py px : Nat) (d : Canvas) :
    Toggles (fun r c => bit = true ∧ r.val = py ∧ c.val = px) d (plot bit py px d) := by
  unfold plot
  split
  · rename_i h
    obtain ⟨hb, hx, hy⟩ := h
    have key : ∀ (r : Fin 32) (c : Fin 64),
        cell (d.1.set py (d.1[py].set px (!d.1[py][px]))) r c
          = if r.val = py ∧ c.val = px then !cell d.1 r c else cell d.1 r c := by
      intro r c
      simp only [cell, Fin.getElem_fin, Vector.getElem_set]
      by_cases hr : py = r.val
      · subst hr
        simp only [if_true, Vector.getElem_set, true_and, eq_comm (a := px)]
        split
        · rename_i hc; subst hc; rfl
        · rfl
      · simp [hr, Ne.symm hr]
    refine ⟨fun r c => ⟨fun p => by rw [key, if_pos p.2], fun n => by rw [key, if_neg (by tauto)]⟩, ?_⟩
    simp only [Bool.or_eq_true]
    constructor
    · rintro (h | h)
      · exact .inl h
      · exact .inr ⟨⟨py, by omega⟩, ⟨px, by omega⟩, ⟨hb, rfl, rfl⟩, h⟩
    · rintro (h | ⟨r, c, ⟨-, hr, hc⟩, on⟩)
      · exact .inl h
      · subst hr; subst hc; exact .inr on
  · rename_i h
    refine (Toggles.none d).congr fun r c => ⟨False.elim, fun p => h ⟨p.1, by omega, by omega⟩⟩

/-- A run of columns toggles the cells under its set bits. -/
theorem plotColumns_toggles (row : Byte) (py x0 : Nat) (cs : List Nat) (hd : cs.Nodup) (d : Canvas) :
    Toggles (fun r c => r.val = py ∧ ∃ k ∈ cs, c.val = x0 + k ∧ row.getLsbD (7 - k) = true) d
      (plotColumns row py x0 cs d) := by
  induction cs generalizing d with
  | nil => exact (Toggles.none d).congr fun r c => by simp
  | cons k cs ih =>
    obtain ⟨hk, hn⟩ := List.nodup_cons.1 hd
    have h1 := plot_toggles (row.getLsbD (7 - k)) py (x0 + k) d
    have h2 := ih hn (plot (row.getLsbD (7 - k)) py (x0 + k) d)
    refine (h1.trans h2 ?_).congr fun r c => ?_
    · rintro r c ⟨-, -, hc⟩ ⟨-, j, hj, hc', -⟩
      have : k = j := by omega
      exact hk (this ▸ hj)
    · simp only [List.mem_cons, exists_eq_or_imp]
      tauto

/-- One sprite row, bit 7 leftmost (R101). -/
theorem plotRow_toggles (row : Byte) (py x0 : Nat) (d : Canvas) :
    Toggles (fun r c => r.val = py ∧ x0 ≤ c.val ∧ c.val < x0 + 8 ∧ row.getLsbD (7 - (c.val - x0)) = true) d
      (plotColumns row py x0 [0, 1, 2, 3, 4, 5, 6, 7] d) := by
  refine (plotColumns_toggles row py x0 _ (by decide) d).congr fun r c => ?_
  constructor
  · rintro ⟨hr, k, hk, hc, hb⟩
    have : k < 8 := by
      simp only [List.mem_cons, List.not_mem_nil, or_false] at hk; omega
    exact ⟨hr, by omega, by omega, by rw [hc, Nat.add_sub_cancel_left]; exact hb⟩
  · rintro ⟨hr, h0, h8, hb⟩
    refine ⟨hr, c.val - x0, ?_, by omega, hb⟩
    simp only [List.mem_cons, List.not_mem_nil, or_false]; omega

/-- The rows of a sprite toggle the cells under their set bits. -/
theorem plotRows_toggles (x0 : Nat) (rows : List Byte) (y0 : Nat) (d : Canvas) :
    Toggles (fun r c => y0 ≤ r.val ∧ ∃ h : r.val - y0 < rows.length,
        x0 ≤ c.val ∧ c.val < x0 + 8 ∧ (rows[r.val - y0]).getLsbD (7 - (c.val - x0)) = true) d
      (plotRows x0 rows y0 d) := by
  induction rows generalizing y0 d with
  | nil => exact (Toggles.none d).congr fun r c => by simp
  | cons row rows ih =>
    refine ((plotRow_toggles row y0 x0 d).trans (ih (y0 + 1) _) ?_).congr fun r c => ?_
    · rintro r c ⟨hr, -⟩ ⟨hr', -⟩; omega
    · constructor
      · rintro (⟨hr, hc, hc', hb⟩ | ⟨hr, hl, hc, hc', hb⟩)
        · have e : r.val - y0 = 0 := by omega
          exact ⟨by omega, by simp only [List.length_cons]; omega, hc, hc', by simp only [e, List.getElem_cons_zero]; exact hb⟩
        · have e : r.val - y0 = r.val - (y0 + 1) + 1 := by omega
          exact ⟨by omega, by simp only [List.length_cons]; omega, hc, hc',
            by simp only [e, List.getElem_cons_succ]; exact hb⟩
      · rintro ⟨hr, hl, hc, hc', hb⟩
        by_cases e : r.val = y0
        · left
          have e' : r.val - y0 = 0 := by omega
          simp only [e', List.getElem_cons_zero] at hb
          exact ⟨e, hc, hc', hb⟩
        · right
          have e' : r.val - y0 = r.val - (y0 + 1) + 1 := by omega
          simp only [List.length_cons] at hl
          simp only [e', List.getElem_cons_succ] at hb
          exact ⟨by omega, by omega, hc, hc', hb⟩

/-- The whole sprite. -/
theorem drawSprite_toggles (rows : List Byte) (x0 y0 : Nat) (fb : Framebuffer) :
    Toggles (fun r c => y0 ≤ r.val ∧ ∃ h : r.val - y0 < rows.length,
        x0 ≤ c.val ∧ c.val < x0 + 8 ∧ (rows[r.val - y0]).getLsbD (7 - (c.val - x0)) = true) (fb, false)
      (drawSprite rows x0 y0 fb) := plotRows_toggles x0 rows y0 (fb, false)

/-- Framebuffers with the same cells are the same. -/
theorem Framebuffer.ext {fb fb' : Framebuffer} (h : ∀ r c, cell fb r c = cell fb' r c) : fb = fb' := by
  apply Vector.ext; intro i hi
  apply Vector.ext; intro j hj
  exact h ⟨i, hi⟩ ⟨j, hj⟩

@[simp] theorem cell_blank (r : Fin 32) (c : Fin 64) : cell Framebuffer.blank r c = false := by
  simp [cell, Framebuffer.blank]

end Sys2Proof.Machine
end

