-- ==== Sys2Proof/Laws/Memory.lean ====
section
/-! SUPPORT. The laws of memory: a read after a write, the frame of a write, runs of bytes, and that every memory operation keeps the
canonical form. -/

namespace Sys2Proof.Machine.Memory

/-- Every address of `m` is above `a`. -/
def above (a : Nat) (m : Memory) : Prop := ∀ c ∈ m, a < c.1

/-- Canonical form, split into the part about the order and the part about each entry. -/
def entryOk (c : Host.Cell) : Prop := c.1 ≤ 0xFFF ∧ c.2 ≠ unlisted c.1

@[simp] theorem read_nil (a : Nat) : read [] a = unlisted a := rfl

theorem read_cons (k : Nat) (v : Byte) (m : Memory) (a : Nat) :
    read ((k, v) :: m) a = if a = k then v else read m a := rfl

theorem rising_cons (c : Host.Cell) (m : Memory) :
    rising (c :: m) = true ↔ above c.1 m ∧ rising m = true := by
  induction m generalizing c with
  | nil => simp [rising, above]
  | cons d m ih =>
    obtain ⟨k, v⟩ := c
    obtain ⟨k', v'⟩ := d
    simp only [rising, Bool.and_eq_true, decide_eq_true_eq, above, List.mem_cons, forall_eq_or_imp]
    constructor
    · rintro ⟨h, hr⟩
      exact ⟨⟨h, fun c hc => lt_trans h (((ih _).1 hr).1 c hc)⟩, hr⟩
    · rintro ⟨⟨h, _⟩, hr⟩
      exact ⟨h, hr⟩

theorem wf_iff (m : Memory) : m.wf = true ↔ rising m = true ∧ ∀ c ∈ m, entryOk c := by
  simp [wf, entryOk]

theorem wf_nil : wf [] = true := rfl

theorem wf_cons (c : Host.Cell) (m : Memory) :
    wf (c :: m) = true ↔ above c.1 m ∧ entryOk c ∧ wf m = true := by
  rw [wf_iff, wf_iff, rising_cons]
  simp only [List.mem_cons, forall_eq_or_imp]
  tauto

/-- An address that no entry has reads as unlisted. -/
theorem read_of_above {m : Memory} {a : Nat} (h : above a m) : read m a = unlisted a := by
  induction m with
  | nil => rfl
  | cons c m ih =>
    obtain ⟨k, v⟩ := c
    have hk : a < k := h (k, v) (by simp)
    rw [read_cons, if_neg (by omega)]
    exact ih fun c hc => h c (by simp [hc])

/-- A write leaves every other address alone, whatever the list. -/
theorem read_write_ne (m : Memory) (a b : Nat) (v : Byte) (h : b ≠ a) : read (m.write a v) b = read m b := by
  induction m with
  | nil => unfold write; split <;> simp [read_cons, h]
  | cons c m ih =>
    obtain ⟨k, u⟩ := c
    unfold write
    split
    · split <;> simp [read_cons, h]
    · split
      · rename_i hk; subst hk
        split <;> simp [read_cons, h]
      · simp only [read_cons, ih]

/-- A read after a write to the same address gives the value written (R55). -/
theorem read_write_self (m : Memory) (a : Nat) (v : Byte) (h : m.wf = true) : read (m.write a v) a = v := by
  induction m with
  | nil => unfold write; split <;> simp_all [read_cons]
  | cons c m ih =>
    obtain ⟨k, u⟩ := c
    obtain ⟨hab, -, hm⟩ := (wf_cons _ _).1 h
    unfold write
    split
    · rename_i hlt
      split
      · rename_i hv
        rw [read_cons, if_neg (by omega), hv]
        exact read_of_above fun c hc => lt_trans hlt (hab c hc)
      · simp [read_cons]
    · split
      · rename_i hk; subst hk
        split
        · rename_i hv; rw [hv]; exact read_of_above hab
        · simp [read_cons]
      · rename_i hk
        rw [read_cons, if_neg hk]; exact ih hm

theorem read_write (m : Memory) (a b : Nat) (v : Byte) (h : m.wf = true) :
    read (m.write a v) b = if b = a then v else read m b := by
  split
  · rename_i e; subst e; exact read_write_self m b v h
  · rename_i e; exact read_write_ne m a b v e

/-- What a write adds is an entry at its own address only. -/
theorem mem_write {m : Memory} {a : Nat} {v : Byte} {c : Host.Cell} (hc : c ∈ m.write a v) :
    c ∈ m ∨ (c = (a, v) ∧ v ≠ unlisted a) := by
  induction m with
  | nil =>
    unfold write at hc
    split at hc <;> simp_all
  | cons d m ih =>
    obtain ⟨k, u⟩ := d
    unfold write at hc
    split at hc
    · split at hc
      · exact .inl hc
      · rcases List.mem_cons.1 hc with h | h
        · exact .inr ⟨h, by assumption⟩
        · exact .inl h
    · split at hc
      · split at hc
        · exact .inl (List.mem_cons_of_mem _ hc)
        · rcases List.mem_cons.1 hc with h | h
          · exact .inr ⟨h, by assumption⟩
          · exact .inl (List.mem_cons_of_mem _ h)
      · rcases List.mem_cons.1 hc with h | h
        · exact .inl (by simp [h])
        · rcases ih h with h | h
          · exact .inl (List.mem_cons_of_mem _ h)
          · exact .inr h

/-- A write to one of the 4096 addresses keeps the canonical form. -/
theorem write_wf {m : Memory} {a : Nat} {v : Byte} (h : m.wf = true) (ha : a ≤ 0xFFF) : (m.write a v).wf = true := by
  induction m with
  | nil =>
    unfold write
    split
    · rfl
    · rename_i hv
      exact (wf_cons _ _).2 ⟨by simp [above], ⟨ha, hv⟩, rfl⟩
  | cons c m ih =>
    obtain ⟨k, u⟩ := c
    obtain ⟨hab, hok, hm⟩ := (wf_cons _ _).1 h
    unfold write
    split
    · rename_i hlt
      split
      · exact h
      · rename_i hv
        refine (wf_cons _ _).2 ⟨?_, ⟨ha, hv⟩, h⟩
        intro c hc
        rcases List.mem_cons.1 hc with e | e
        · subst e; exact hlt
        · exact lt_trans hlt (hab c e)
    · split
      · rename_i hk; subst hk
        split
        · exact hm
        · rename_i hv
          exact (wf_cons _ _).2 ⟨hab, ⟨ha, hv⟩, hm⟩
      · rename_i hk
        refine (wf_cons _ _).2 ⟨?_, hok, ih hm⟩
        intro c hc
        rcases mem_write hc with e | ⟨e, -⟩
        · exact hab c e
        · subst e; show k < a; omega

/-! Runs of bytes. -/

@[simp] theorem writeBytes_nil (m : Memory) (a : Nat) : m.writeBytes a [] = m := rfl

@[simp] theorem writeBytes_cons (m : Memory) (a : Nat) (v : Byte) (vs : List Byte) :
    m.writeBytes a (v :: vs) = (m.write a v).writeBytes (a + 1) vs := rfl

/-- Storing bytes below 0x1000 keeps the canonical form. -/
theorem writeBytes_wf {m : Memory} {a : Nat} {vs : List Byte} (h : m.wf = true) (ha : a + vs.length ≤ 0x1000) :
    (m.writeBytes a vs).wf = true := by
  induction vs generalizing m a with
  | nil => exact h
  | cons v vs ih =>
    simp only [List.length_cons] at ha
    exact ih (write_wf h (by omega)) (by omega)

/-- Storing bytes leaves every address outside them alone, whatever the list. -/
theorem read_writeBytes_outside (m : Memory) (a b : Nat) (vs : List Byte) (h : b < a ∨ a + vs.length ≤ b) :
    read (m.writeBytes a vs) b = read m b := by
  induction vs generalizing m a with
  | nil => rfl
  | cons v vs ih =>
    simp only [List.length_cons] at h
    rw [writeBytes_cons, ih _ _ (by omega), read_write_ne _ _ _ _ (by omega)]

/-- The `i`-th stored byte reads back. -/
theorem read_writeBytes_inside (m : Memory) (a i : Nat) (vs : List Byte) (h : m.wf = true)
    (ha : a + vs.length ≤ 0x1000) (hi : i < vs.length) : read (m.writeBytes a vs) (a + i) = vs[i] := by
  induction vs generalizing m a i with
  | nil => simp at hi
  | cons v vs ih =>
    simp only [List.length_cons] at ha hi
    rw [writeBytes_cons]
    cases i with
    | zero =>
      rw [read_writeBytes_outside _ _ _ _ (by omega)]
      exact read_write_self m a v h
    | succ i =>
      have := ih (m.write a v) (a + 1) i (write_wf h (by omega)) (by omega) (by omega)
      rw [show a + (i + 1) = a + 1 + i by omega, this]
      rfl

@[simp] theorem readBytes_length (m : Memory) (a n : Nat) : (m.readBytes a n).length = n := by
  induction n generalizing a with
  | zero => rfl
  | succ n ih => simp [readBytes, ih]

/-- The `i`-th byte read is the byte at `a + i`. -/
theorem readBytes_getElem (m : Memory) (a n i : Nat) (h : i < (m.readBytes a n).length) :
    (m.readBytes a n)[i] = m.read (a + i) := by
  induction n generalizing a i with
  | zero => simp [readBytes] at h
  | succ n ih =>
    cases i with
    | zero => rfl
    | succ i =>
      simp only [readBytes, List.getElem_cons_succ]
      rw [ih, show a + 1 + i = a + (i + 1) by omega]

end Sys2Proof.Machine.Memory

namespace Sys2Proof.Machine

/-- The range check, as the sum it bounds (R54). -/
theorem inRange_iff (a n : Nat) : inRange a n = true ↔ n = 0 ∨ a + n ≤ 0x1000 := by
  simp [inRange]

end Sys2Proof.Machine
end

