-- ==== Sys2Proof/Laws/State.lean ====
section
/-! SUPPORT. One lemma for each field under each update of the state, true by rfl, and the reads of a register through the updates of
the register file, so that no later proof unfolds a record update. -/

namespace Sys2Proof.Machine.State

/-! `setReg` -/

@[simp] theorem setReg_mem (s : State) (r : RegNum) (v : Byte) : (s.setReg r v).mem = s.mem := rfl
@[simp] theorem setReg_x (s : State) (r : RegNum) (v : Byte) : (s.setReg r v).x = s.x.set r v := rfl
@[simp] theorem setReg_index (s : State) (r : RegNum) (v : Byte) : (s.setReg r v).index = s.index := rfl
@[simp] theorem setReg_pc (s : State) (r : RegNum) (v : Byte) : (s.setReg r v).pc = s.pc := rfl
@[simp] theorem setReg_stack (s : State) (r : RegNum) (v : Byte) : (s.setReg r v).stack = s.stack := rfl
@[simp] theorem setReg_sp (s : State) (r : RegNum) (v : Byte) : (s.setReg r v).sp = s.sp := rfl
@[simp] theorem setReg_dt (s : State) (r : RegNum) (v : Byte) : (s.setReg r v).dt = s.dt := rfl
@[simp] theorem setReg_st (s : State) (r : RegNum) (v : Byte) : (s.setReg r v).st = s.st := rfl
@[simp] theorem setReg_fb (s : State) (r : RegNum) (v : Byte) : (s.setReg r v).fb = s.fb := rfl
@[simp] theorem setReg_key (s : State) (r : RegNum) (v : Byte) : (s.setReg r v).key = s.key := rfl
@[simp] theorem setReg_ir (s : State) (r : RegNum) (v : Byte) : (s.setReg r v).ir = s.ir := rfl
@[simp] theorem setReg_runState (s : State) (r : RegNum) (v : Byte) : (s.setReg r v).runState = s.runState := rfl
@[simp] theorem setReg_faultReason (s : State) (r : RegNum) (v : Byte) : (s.setReg r v).faultReason = s.faultReason := rfl
@[simp] theorem setReg_rndIn (s : State) (r : RegNum) (v : Byte) : (s.setReg r v).rndIn = s.rndIn := rfl
@[simp] theorem setReg_draws (s : State) (r : RegNum) (v : Byte) : (s.setReg r v).draws = s.draws := rfl

/-! `setRegs` -/

@[simp] theorem setRegs_mem (s : State) (x : Vector Byte 16) : (s.setRegs x).mem = s.mem := rfl
@[simp] theorem setRegs_x (s : State) (x : Vector Byte 16) : (s.setRegs x).x = x := rfl
@[simp] theorem setRegs_index (s : State) (x : Vector Byte 16) : (s.setRegs x).index = s.index := rfl
@[simp] theorem setRegs_pc (s : State) (x : Vector Byte 16) : (s.setRegs x).pc = s.pc := rfl
@[simp] theorem setRegs_stack (s : State) (x : Vector Byte 16) : (s.setRegs x).stack = s.stack := rfl
@[simp] theorem setRegs_sp (s : State) (x : Vector Byte 16) : (s.setRegs x).sp = s.sp := rfl
@[simp] theorem setRegs_dt (s : State) (x : Vector Byte 16) : (s.setRegs x).dt = s.dt := rfl
@[simp] theorem setRegs_st (s : State) (x : Vector Byte 16) : (s.setRegs x).st = s.st := rfl
@[simp] theorem setRegs_fb (s : State) (x : Vector Byte 16) : (s.setRegs x).fb = s.fb := rfl
@[simp] theorem setRegs_key (s : State) (x : Vector Byte 16) : (s.setRegs x).key = s.key := rfl
@[simp] theorem setRegs_ir (s : State) (x : Vector Byte 16) : (s.setRegs x).ir = s.ir := rfl
@[simp] theorem setRegs_runState (s : State) (x : Vector Byte 16) : (s.setRegs x).runState = s.runState := rfl
@[simp] theorem setRegs_faultReason (s : State) (x : Vector Byte 16) : (s.setRegs x).faultReason = s.faultReason := rfl
@[simp] theorem setRegs_rndIn (s : State) (x : Vector Byte 16) : (s.setRegs x).rndIn = s.rndIn := rfl
@[simp] theorem setRegs_draws (s : State) (x : Vector Byte 16) : (s.setRegs x).draws = s.draws := rfl

/-! `setIndex` -/

@[simp] theorem setIndex_mem (s : State) (v : Word) : (s.setIndex v).mem = s.mem := rfl
@[simp] theorem setIndex_x (s : State) (v : Word) : (s.setIndex v).x = s.x := rfl
@[simp] theorem setIndex_index (s : State) (v : Word) : (s.setIndex v).index = v := rfl
@[simp] theorem setIndex_pc (s : State) (v : Word) : (s.setIndex v).pc = s.pc := rfl
@[simp] theorem setIndex_stack (s : State) (v : Word) : (s.setIndex v).stack = s.stack := rfl
@[simp] theorem setIndex_sp (s : State) (v : Word) : (s.setIndex v).sp = s.sp := rfl
@[simp] theorem setIndex_dt (s : State) (v : Word) : (s.setIndex v).dt = s.dt := rfl
@[simp] theorem setIndex_st (s : State) (v : Word) : (s.setIndex v).st = s.st := rfl
@[simp] theorem setIndex_fb (s : State) (v : Word) : (s.setIndex v).fb = s.fb := rfl
@[simp] theorem setIndex_key (s : State) (v : Word) : (s.setIndex v).key = s.key := rfl
@[simp] theorem setIndex_ir (s : State) (v : Word) : (s.setIndex v).ir = s.ir := rfl
@[simp] theorem setIndex_runState (s : State) (v : Word) : (s.setIndex v).runState = s.runState := rfl
@[simp] theorem setIndex_faultReason (s : State) (v : Word) : (s.setIndex v).faultReason = s.faultReason := rfl
@[simp] theorem setIndex_rndIn (s : State) (v : Word) : (s.setIndex v).rndIn = s.rndIn := rfl
@[simp] theorem setIndex_draws (s : State) (v : Word) : (s.setIndex v).draws = s.draws := rfl

/-! `setPc` -/

@[simp] theorem setPc_mem (s : State) (v : Word) : (s.setPc v).mem = s.mem := rfl
@[simp] theorem setPc_x (s : State) (v : Word) : (s.setPc v).x = s.x := rfl
@[simp] theorem setPc_index (s : State) (v : Word) : (s.setPc v).index = s.index := rfl
@[simp] theorem setPc_pc (s : State) (v : Word) : (s.setPc v).pc = v := rfl
@[simp] theorem setPc_stack (s : State) (v : Word) : (s.setPc v).stack = s.stack := rfl
@[simp] theorem setPc_sp (s : State) (v : Word) : (s.setPc v).sp = s.sp := rfl
@[simp] theorem setPc_dt (s : State) (v : Word) : (s.setPc v).dt = s.dt := rfl
@[simp] theorem setPc_st (s : State) (v : Word) : (s.setPc v).st = s.st := rfl
@[simp] theorem setPc_fb (s : State) (v : Word) : (s.setPc v).fb = s.fb := rfl
@[simp] theorem setPc_key (s : State) (v : Word) : (s.setPc v).key = s.key := rfl
@[simp] theorem setPc_ir (s : State) (v : Word) : (s.setPc v).ir = s.ir := rfl
@[simp] theorem setPc_runState (s : State) (v : Word) : (s.setPc v).runState = s.runState := rfl
@[simp] theorem setPc_faultReason (s : State) (v : Word) : (s.setPc v).faultReason = s.faultReason := rfl
@[simp] theorem setPc_rndIn (s : State) (v : Word) : (s.setPc v).rndIn = s.rndIn := rfl
@[simp] theorem setPc_draws (s : State) (v : Word) : (s.setPc v).draws = s.draws := rfl

/-! `setDt` -/

@[simp] theorem setDt_mem (s : State) (v : Byte) : (s.setDt v).mem = s.mem := rfl
@[simp] theorem setDt_x (s : State) (v : Byte) : (s.setDt v).x = s.x := rfl
@[simp] theorem setDt_index (s : State) (v : Byte) : (s.setDt v).index = s.index := rfl
@[simp] theorem setDt_pc (s : State) (v : Byte) : (s.setDt v).pc = s.pc := rfl
@[simp] theorem setDt_stack (s : State) (v : Byte) : (s.setDt v).stack = s.stack := rfl
@[simp] theorem setDt_sp (s : State) (v : Byte) : (s.setDt v).sp = s.sp := rfl
@[simp] theorem setDt_dt (s : State) (v : Byte) : (s.setDt v).dt = v := rfl
@[simp] theorem setDt_st (s : State) (v : Byte) : (s.setDt v).st = s.st := rfl
@[simp] theorem setDt_fb (s : State) (v : Byte) : (s.setDt v).fb = s.fb := rfl
@[simp] theorem setDt_key (s : State) (v : Byte) : (s.setDt v).key = s.key := rfl
@[simp] theorem setDt_ir (s : State) (v : Byte) : (s.setDt v).ir = s.ir := rfl
@[simp] theorem setDt_runState (s : State) (v : Byte) : (s.setDt v).runState = s.runState := rfl
@[simp] theorem setDt_faultReason (s : State) (v : Byte) : (s.setDt v).faultReason = s.faultReason := rfl
@[simp] theorem setDt_rndIn (s : State) (v : Byte) : (s.setDt v).rndIn = s.rndIn := rfl
@[simp] theorem setDt_draws (s : State) (v : Byte) : (s.setDt v).draws = s.draws := rfl

/-! `setSt` -/

@[simp] theorem setSt_mem (s : State) (v : Byte) : (s.setSt v).mem = s.mem := rfl
@[simp] theorem setSt_x (s : State) (v : Byte) : (s.setSt v).x = s.x := rfl
@[simp] theorem setSt_index (s : State) (v : Byte) : (s.setSt v).index = s.index := rfl
@[simp] theorem setSt_pc (s : State) (v : Byte) : (s.setSt v).pc = s.pc := rfl
@[simp] theorem setSt_stack (s : State) (v : Byte) : (s.setSt v).stack = s.stack := rfl
@[simp] theorem setSt_sp (s : State) (v : Byte) : (s.setSt v).sp = s.sp := rfl
@[simp] theorem setSt_dt (s : State) (v : Byte) : (s.setSt v).dt = s.dt := rfl
@[simp] theorem setSt_st (s : State) (v : Byte) : (s.setSt v).st = v := rfl
@[simp] theorem setSt_fb (s : State) (v : Byte) : (s.setSt v).fb = s.fb := rfl
@[simp] theorem setSt_key (s : State) (v : Byte) : (s.setSt v).key = s.key := rfl
@[simp] theorem setSt_ir (s : State) (v : Byte) : (s.setSt v).ir = s.ir := rfl
@[simp] theorem setSt_runState (s : State) (v : Byte) : (s.setSt v).runState = s.runState := rfl
@[simp] theorem setSt_faultReason (s : State) (v : Byte) : (s.setSt v).faultReason = s.faultReason := rfl
@[simp] theorem setSt_rndIn (s : State) (v : Byte) : (s.setSt v).rndIn = s.rndIn := rfl
@[simp] theorem setSt_draws (s : State) (v : Byte) : (s.setSt v).draws = s.draws := rfl

/-! `setFb` -/

@[simp] theorem setFb_mem (s : State) (fb : Framebuffer) : (s.setFb fb).mem = s.mem := rfl
@[simp] theorem setFb_x (s : State) (fb : Framebuffer) : (s.setFb fb).x = s.x := rfl
@[simp] theorem setFb_index (s : State) (fb : Framebuffer) : (s.setFb fb).index = s.index := rfl
@[simp] theorem setFb_pc (s : State) (fb : Framebuffer) : (s.setFb fb).pc = s.pc := rfl
@[simp] theorem setFb_stack (s : State) (fb : Framebuffer) : (s.setFb fb).stack = s.stack := rfl
@[simp] theorem setFb_sp (s : State) (fb : Framebuffer) : (s.setFb fb).sp = s.sp := rfl
@[simp] theorem setFb_dt (s : State) (fb : Framebuffer) : (s.setFb fb).dt = s.dt := rfl
@[simp] theorem setFb_st (s : State) (fb : Framebuffer) : (s.setFb fb).st = s.st := rfl
@[simp] theorem setFb_fb (s : State) (fb : Framebuffer) : (s.setFb fb).fb = fb := rfl
@[simp] theorem setFb_key (s : State) (fb : Framebuffer) : (s.setFb fb).key = s.key := rfl
@[simp] theorem setFb_ir (s : State) (fb : Framebuffer) : (s.setFb fb).ir = s.ir := rfl
@[simp] theorem setFb_runState (s : State) (fb : Framebuffer) : (s.setFb fb).runState = s.runState := rfl
@[simp] theorem setFb_faultReason (s : State) (fb : Framebuffer) : (s.setFb fb).faultReason = s.faultReason := rfl
@[simp] theorem setFb_rndIn (s : State) (fb : Framebuffer) : (s.setFb fb).rndIn = s.rndIn := rfl
@[simp] theorem setFb_draws (s : State) (fb : Framebuffer) : (s.setFb fb).draws = s.draws := rfl

/-! `setMem` -/

@[simp] theorem setMem_mem (s : State) (m : Memory) : (s.setMem m).mem = m := rfl
@[simp] theorem setMem_x (s : State) (m : Memory) : (s.setMem m).x = s.x := rfl
@[simp] theorem setMem_index (s : State) (m : Memory) : (s.setMem m).index = s.index := rfl
@[simp] theorem setMem_pc (s : State) (m : Memory) : (s.setMem m).pc = s.pc := rfl
@[simp] theorem setMem_stack (s : State) (m : Memory) : (s.setMem m).stack = s.stack := rfl
@[simp] theorem setMem_sp (s : State) (m : Memory) : (s.setMem m).sp = s.sp := rfl
@[simp] theorem setMem_dt (s : State) (m : Memory) : (s.setMem m).dt = s.dt := rfl
@[simp] theorem setMem_st (s : State) (m : Memory) : (s.setMem m).st = s.st := rfl
@[simp] theorem setMem_fb (s : State) (m : Memory) : (s.setMem m).fb = s.fb := rfl
@[simp] theorem setMem_key (s : State) (m : Memory) : (s.setMem m).key = s.key := rfl
@[simp] theorem setMem_ir (s : State) (m : Memory) : (s.setMem m).ir = s.ir := rfl
@[simp] theorem setMem_runState (s : State) (m : Memory) : (s.setMem m).runState = s.runState := rfl
@[simp] theorem setMem_faultReason (s : State) (m : Memory) : (s.setMem m).faultReason = s.faultReason := rfl
@[simp] theorem setMem_rndIn (s : State) (m : Memory) : (s.setMem m).rndIn = s.rndIn := rfl
@[simp] theorem setMem_draws (s : State) (m : Memory) : (s.setMem m).draws = s.draws := rfl

/-! `setKey` -/

@[simp] theorem setKey_mem (s : State) (k : Vector Bool 16) : (s.setKey k).mem = s.mem := rfl
@[simp] theorem setKey_x (s : State) (k : Vector Bool 16) : (s.setKey k).x = s.x := rfl
@[simp] theorem setKey_index (s : State) (k : Vector Bool 16) : (s.setKey k).index = s.index := rfl
@[simp] theorem setKey_pc (s : State) (k : Vector Bool 16) : (s.setKey k).pc = s.pc := rfl
@[simp] theorem setKey_stack (s : State) (k : Vector Bool 16) : (s.setKey k).stack = s.stack := rfl
@[simp] theorem setKey_sp (s : State) (k : Vector Bool 16) : (s.setKey k).sp = s.sp := rfl
@[simp] theorem setKey_dt (s : State) (k : Vector Bool 16) : (s.setKey k).dt = s.dt := rfl
@[simp] theorem setKey_st (s : State) (k : Vector Bool 16) : (s.setKey k).st = s.st := rfl
@[simp] theorem setKey_fb (s : State) (k : Vector Bool 16) : (s.setKey k).fb = s.fb := rfl
@[simp] theorem setKey_key (s : State) (k : Vector Bool 16) : (s.setKey k).key = k := rfl
@[simp] theorem setKey_ir (s : State) (k : Vector Bool 16) : (s.setKey k).ir = s.ir := rfl
@[simp] theorem setKey_runState (s : State) (k : Vector Bool 16) : (s.setKey k).runState = s.runState := rfl
@[simp] theorem setKey_faultReason (s : State) (k : Vector Bool 16) : (s.setKey k).faultReason = s.faultReason := rfl
@[simp] theorem setKey_rndIn (s : State) (k : Vector Bool 16) : (s.setKey k).rndIn = s.rndIn := rfl
@[simp] theorem setKey_draws (s : State) (k : Vector Bool 16) : (s.setKey k).draws = s.draws := rfl

/-! `raise` -/

@[simp] theorem raise_mem (s : State) (r : FaultReason) : (s.raise r).mem = s.mem := rfl
@[simp] theorem raise_x (s : State) (r : FaultReason) : (s.raise r).x = s.x := rfl
@[simp] theorem raise_index (s : State) (r : FaultReason) : (s.raise r).index = s.index := rfl
@[simp] theorem raise_pc (s : State) (r : FaultReason) : (s.raise r).pc = s.pc := rfl
@[simp] theorem raise_stack (s : State) (r : FaultReason) : (s.raise r).stack = s.stack := rfl
@[simp] theorem raise_sp (s : State) (r : FaultReason) : (s.raise r).sp = s.sp := rfl
@[simp] theorem raise_dt (s : State) (r : FaultReason) : (s.raise r).dt = s.dt := rfl
@[simp] theorem raise_st (s : State) (r : FaultReason) : (s.raise r).st = s.st := rfl
@[simp] theorem raise_fb (s : State) (r : FaultReason) : (s.raise r).fb = s.fb := rfl
@[simp] theorem raise_key (s : State) (r : FaultReason) : (s.raise r).key = s.key := rfl
@[simp] theorem raise_ir (s : State) (r : FaultReason) : (s.raise r).ir = s.ir := rfl
@[simp] theorem raise_runState (s : State) (r : FaultReason) : (s.raise r).runState = .faulted := rfl
@[simp] theorem raise_faultReason (s : State) (r : FaultReason) : (s.raise r).faultReason = r := rfl
@[simp] theorem raise_rndIn (s : State) (r : FaultReason) : (s.raise r).rndIn = s.rndIn := rfl
@[simp] theorem raise_draws (s : State) (r : FaultReason) : (s.raise r).draws = s.draws := rfl

/-! `setFlag` -/

@[simp] theorem setFlag_mem (s : State) (b : Bool) : (s.setFlag b).mem = s.mem := rfl
@[simp] theorem setFlag_x (s : State) (b : Bool) : (s.setFlag b).x = s.x.set 15 (flagByte b) := rfl
@[simp] theorem setFlag_index (s : State) (b : Bool) : (s.setFlag b).index = s.index := rfl
@[simp] theorem setFlag_pc (s : State) (b : Bool) : (s.setFlag b).pc = s.pc := rfl
@[simp] theorem setFlag_stack (s : State) (b : Bool) : (s.setFlag b).stack = s.stack := rfl
@[simp] theorem setFlag_sp (s : State) (b : Bool) : (s.setFlag b).sp = s.sp := rfl
@[simp] theorem setFlag_dt (s : State) (b : Bool) : (s.setFlag b).dt = s.dt := rfl
@[simp] theorem setFlag_st (s : State) (b : Bool) : (s.setFlag b).st = s.st := rfl
@[simp] theorem setFlag_fb (s : State) (b : Bool) : (s.setFlag b).fb = s.fb := rfl
@[simp] theorem setFlag_key (s : State) (b : Bool) : (s.setFlag b).key = s.key := rfl
@[simp] theorem setFlag_ir (s : State) (b : Bool) : (s.setFlag b).ir = s.ir := rfl
@[simp] theorem setFlag_runState (s : State) (b : Bool) : (s.setFlag b).runState = s.runState := rfl
@[simp] theorem setFlag_faultReason (s : State) (b : Bool) : (s.setFlag b).faultReason = s.faultReason := rfl
@[simp] theorem setFlag_rndIn (s : State) (b : Bool) : (s.setFlag b).rndIn = s.rndIn := rfl
@[simp] theorem setFlag_draws (s : State) (b : Bool) : (s.setFlag b).draws = s.draws := rfl

/-! `setResultAndFlag` -/

@[simp] theorem setResultAndFlag_mem (s : State) (r : RegNum) (v : Byte) (b : Bool) : (s.setResultAndFlag r v b).mem = s.mem := rfl
@[simp] theorem setResultAndFlag_x (s : State) (r : RegNum) (v : Byte) (b : Bool) : (s.setResultAndFlag r v b).x = (s.x.set r v).set 15 (flagByte b) := rfl
@[simp] theorem setResultAndFlag_index (s : State) (r : RegNum) (v : Byte) (b : Bool) : (s.setResultAndFlag r v b).index = s.index := rfl
@[simp] theorem setResultAndFlag_pc (s : State) (r : RegNum) (v : Byte) (b : Bool) : (s.setResultAndFlag r v b).pc = s.pc := rfl
@[simp] theorem setResultAndFlag_stack (s : State) (r : RegNum) (v : Byte) (b : Bool) : (s.setResultAndFlag r v b).stack = s.stack := rfl
@[simp] theorem setResultAndFlag_sp (s : State) (r : RegNum) (v : Byte) (b : Bool) : (s.setResultAndFlag r v b).sp = s.sp := rfl
@[simp] theorem setResultAndFlag_dt (s : State) (r : RegNum) (v : Byte) (b : Bool) : (s.setResultAndFlag r v b).dt = s.dt := rfl
@[simp] theorem setResultAndFlag_st (s : State) (r : RegNum) (v : Byte) (b : Bool) : (s.setResultAndFlag r v b).st = s.st := rfl
@[simp] theorem setResultAndFlag_fb (s : State) (r : RegNum) (v : Byte) (b : Bool) : (s.setResultAndFlag r v b).fb = s.fb := rfl
@[simp] theorem setResultAndFlag_key (s : State) (r : RegNum) (v : Byte) (b : Bool) : (s.setResultAndFlag r v b).key = s.key := rfl
@[simp] theorem setResultAndFlag_ir (s : State) (r : RegNum) (v : Byte) (b : Bool) : (s.setResultAndFlag r v b).ir = s.ir := rfl
@[simp] theorem setResultAndFlag_runState (s : State) (r : RegNum) (v : Byte) (b : Bool) : (s.setResultAndFlag r v b).runState = s.runState := rfl
@[simp] theorem setResultAndFlag_faultReason (s : State) (r : RegNum) (v : Byte) (b : Bool) : (s.setResultAndFlag r v b).faultReason = s.faultReason := rfl
@[simp] theorem setResultAndFlag_rndIn (s : State) (r : RegNum) (v : Byte) (b : Bool) : (s.setResultAndFlag r v b).rndIn = s.rndIn := rfl
@[simp] theorem setResultAndFlag_draws (s : State) (r : RegNum) (v : Byte) (b : Bool) : (s.setResultAndFlag r v b).draws = s.draws := rfl

/-! `latch` -/

@[simp] theorem latch_mem (s : State) (w : Word) : (s.latch w).mem = s.mem := rfl
@[simp] theorem latch_x (s : State) (w : Word) : (s.latch w).x = s.x := rfl
@[simp] theorem latch_index (s : State) (w : Word) : (s.latch w).index = s.index := rfl
@[simp] theorem latch_pc (s : State) (w : Word) : (s.latch w).pc = s.pc + 2 := rfl
@[simp] theorem latch_stack (s : State) (w : Word) : (s.latch w).stack = s.stack := rfl
@[simp] theorem latch_sp (s : State) (w : Word) : (s.latch w).sp = s.sp := rfl
@[simp] theorem latch_dt (s : State) (w : Word) : (s.latch w).dt = s.dt := rfl
@[simp] theorem latch_st (s : State) (w : Word) : (s.latch w).st = s.st := rfl
@[simp] theorem latch_fb (s : State) (w : Word) : (s.latch w).fb = s.fb := rfl
@[simp] theorem latch_key (s : State) (w : Word) : (s.latch w).key = s.key := rfl
@[simp] theorem latch_ir (s : State) (w : Word) : (s.latch w).ir = w := rfl
@[simp] theorem latch_runState (s : State) (w : Word) : (s.latch w).runState = s.runState := rfl
@[simp] theorem latch_faultReason (s : State) (w : Word) : (s.latch w).faultReason = s.faultReason := rfl
@[simp] theorem latch_rndIn (s : State) (w : Word) : (s.latch w).rndIn = s.rndIn := rfl
@[simp] theorem latch_draws (s : State) (w : Word) : (s.latch w).draws = s.draws := rfl

/-! `tick` -/

@[simp] theorem tick_mem (s : State) : (s.tick).mem = s.mem := rfl
@[simp] theorem tick_x (s : State) : (s.tick).x = s.x := rfl
@[simp] theorem tick_index (s : State) : (s.tick).index = s.index := rfl
@[simp] theorem tick_pc (s : State) : (s.tick).pc = s.pc := rfl
@[simp] theorem tick_stack (s : State) : (s.tick).stack = s.stack := rfl
@[simp] theorem tick_sp (s : State) : (s.tick).sp = s.sp := rfl
@[simp] theorem tick_dt (s : State) : (s.tick).dt = countDown s.dt := rfl
@[simp] theorem tick_st (s : State) : (s.tick).st = countDown s.st := rfl
@[simp] theorem tick_fb (s : State) : (s.tick).fb = s.fb := rfl
@[simp] theorem tick_key (s : State) : (s.tick).key = s.key := rfl
@[simp] theorem tick_ir (s : State) : (s.tick).ir = s.ir := rfl
@[simp] theorem tick_runState (s : State) : (s.tick).runState = s.runState := rfl
@[simp] theorem tick_faultReason (s : State) : (s.tick).faultReason = s.faultReason := rfl
@[simp] theorem tick_rndIn (s : State) : (s.tick).rndIn = s.rndIn := rfl
@[simp] theorem tick_draws (s : State) : (s.tick).draws = s.draws := rfl

/-! `nextRnd` -/

@[simp] theorem nextRnd_mem (s : State) : (s.nextRnd).mem = s.mem := rfl
@[simp] theorem nextRnd_x (s : State) : (s.nextRnd).x = s.x := rfl
@[simp] theorem nextRnd_index (s : State) : (s.nextRnd).index = s.index := rfl
@[simp] theorem nextRnd_pc (s : State) : (s.nextRnd).pc = s.pc := rfl
@[simp] theorem nextRnd_stack (s : State) : (s.nextRnd).stack = s.stack := rfl
@[simp] theorem nextRnd_sp (s : State) : (s.nextRnd).sp = s.sp := rfl
@[simp] theorem nextRnd_dt (s : State) : (s.nextRnd).dt = s.dt := rfl
@[simp] theorem nextRnd_st (s : State) : (s.nextRnd).st = s.st := rfl
@[simp] theorem nextRnd_fb (s : State) : (s.nextRnd).fb = s.fb := rfl
@[simp] theorem nextRnd_key (s : State) : (s.nextRnd).key = s.key := rfl
@[simp] theorem nextRnd_ir (s : State) : (s.nextRnd).ir = s.ir := rfl
@[simp] theorem nextRnd_runState (s : State) : (s.nextRnd).runState = s.runState := rfl
@[simp] theorem nextRnd_faultReason (s : State) : (s.nextRnd).faultReason = s.faultReason := rfl
@[simp] theorem nextRnd_rndIn (s : State) : (s.nextRnd).rndIn = none := rfl
@[simp] theorem nextRnd_draws (s : State) : (s.nextRnd).draws = s.draws + 1 := rfl

/-! `skipIf`: only `pc` depends on the condition. -/

@[simp] theorem skipIf_true (s : State) : s.skipIf true = s.setPc (s.pc + 2) := rfl
@[simp] theorem skipIf_false (s : State) : s.skipIf false = s := rfl
@[simp] theorem skipIf_pc (s : State) (c : Bool) : (s.skipIf c).pc = if c then s.pc + 2 else s.pc := by cases c <;> rfl
@[simp] theorem skipIf_mem (s : State) (c : Bool) : (s.skipIf c).mem = s.mem := by cases c <;> rfl
@[simp] theorem skipIf_x (s : State) (c : Bool) : (s.skipIf c).x = s.x := by cases c <;> rfl
@[simp] theorem skipIf_index (s : State) (c : Bool) : (s.skipIf c).index = s.index := by cases c <;> rfl
@[simp] theorem skipIf_stack (s : State) (c : Bool) : (s.skipIf c).stack = s.stack := by cases c <;> rfl
@[simp] theorem skipIf_sp (s : State) (c : Bool) : (s.skipIf c).sp = s.sp := by cases c <;> rfl
@[simp] theorem skipIf_dt (s : State) (c : Bool) : (s.skipIf c).dt = s.dt := by cases c <;> rfl
@[simp] theorem skipIf_st (s : State) (c : Bool) : (s.skipIf c).st = s.st := by cases c <;> rfl
@[simp] theorem skipIf_fb (s : State) (c : Bool) : (s.skipIf c).fb = s.fb := by cases c <;> rfl
@[simp] theorem skipIf_key (s : State) (c : Bool) : (s.skipIf c).key = s.key := by cases c <;> rfl
@[simp] theorem skipIf_ir (s : State) (c : Bool) : (s.skipIf c).ir = s.ir := by cases c <;> rfl
@[simp] theorem skipIf_runState (s : State) (c : Bool) : (s.skipIf c).runState = s.runState := by cases c <;> rfl
@[simp] theorem skipIf_faultReason (s : State) (c : Bool) : (s.skipIf c).faultReason = s.faultReason := by cases c <;> rfl
@[simp] theorem skipIf_rndIn (s : State) (c : Bool) : (s.skipIf c).rndIn = s.rndIn := by cases c <;> rfl
@[simp] theorem skipIf_draws (s : State) (c : Bool) : (s.skipIf c).draws = s.draws := by cases c <;> rfl

/-! Registers through the updates of the register file. -/

theorem reg_eq (s : State) (r : RegNum) : s.reg r = s.x[r] := rfl

theorem set_getElem_fin (x : Vector Byte 16) (r q : RegNum) (v : Byte) :
    (x.set r v)[q] = if q = r then v else x[q] := by
  simp only [Fin.getElem_fin, Vector.getElem_set, Fin.ext_iff]
  split <;> split <;> first | rfl | omega

@[simp] theorem setReg_reg (s : State) (r q : RegNum) (v : Byte) :
    (s.setReg r v).reg q = if q = r then v else s.reg q := set_getElem_fin s.x r q v

@[simp] theorem setFlag_reg (s : State) (b : Bool) (q : RegNum) :
    (s.setFlag b).reg q = if q = 15 then flagByte b else s.reg q := set_getElem_fin s.x 15 q _

/-- The flag is what remains when the destination is register 15 (R143). -/
@[simp] theorem setResultAndFlag_reg (s : State) (r q : RegNum) (v : Byte) (b : Bool) :
    (s.setResultAndFlag r v b).reg q = if q = 15 then flagByte b else if q = r then v else s.reg q := by
  simp only [setResultAndFlag, setFlag_reg, setReg_reg]

@[simp] theorem latch_reg (s : State) (w : Word) (q : RegNum) : (s.latch w).reg q = s.reg q := rfl
@[simp] theorem tick_reg (s : State) (q : RegNum) : s.tick.reg q = s.reg q := rfl
@[simp] theorem nextRnd_reg (s : State) (q : RegNum) : s.nextRnd.reg q = s.reg q := rfl
@[simp] theorem raise_reg (s : State) (r : FaultReason) (q : RegNum) : (s.raise r).reg q = s.reg q := rfl
@[simp] theorem setPc_reg (s : State) (v : Word) (q : RegNum) : (s.setPc v).reg q = s.reg q := rfl
@[simp] theorem latch_rnd (s : State) (w : Word) : (s.latch w).rnd = s.rnd := rfl

end Sys2Proof.Machine.State
end

