-- ==== Sys2Proof/Laws/Ops.lean ====
section
/-! SUPPORT. What each shared operation can do, said once: the stack, a transfer, a key operand, the key scan, register ranges, digits. -/

namespace Sys2Proof.Machine

namespace State

/-- A push succeeds exactly when the stack is not full, and then writes the next free slot (R27, R112). -/
theorem push?_eq_some {s t : State} {v : Word} (h : s.push? v = some t) :
    ∃ hs : s.sp.val < 16, t = { s with stack := s.stack.set s.sp.val v hs, sp := ⟨s.sp.val + 1, by omega⟩ } := by
  unfold push? at h
  split at h
  · rename_i hs; exact ⟨hs, (Option.some.inj h).symm⟩
  · cases h

theorem push?_of_lt (s : State) (v : Word) (hs : s.sp.val < 16) :
    s.push? v = some { s with stack := s.stack.set s.sp.val v hs, sp := ⟨s.sp.val + 1, by omega⟩ } := dif_pos hs

theorem push?_eq_none (s : State) (v : Word) : s.push? v = none ↔ s.sp.val = 16 := by
  unfold push?
  split <;> simp <;> omega

/-- A pop succeeds exactly when the stack is not empty, and then reads the last slot written (R27, R110). -/
theorem popToPc?_eq_some {s t : State} (h : s.popToPc? = some t) :
    ∃ hs : 0 < s.sp.val, t = { s with pc := s.stack[s.sp.val - 1]'(by omega), sp := ⟨s.sp.val - 1, by omega⟩ } := by
  unfold popToPc? at h
  split at h
  · rename_i hs; exact ⟨hs, (Option.some.inj h).symm⟩
  · cases h

theorem popToPc?_of_pos (s : State) (hs : 0 < s.sp.val) :
    s.popToPc? = some { s with pc := s.stack[s.sp.val - 1]'(by omega), sp := ⟨s.sp.val - 1, by omega⟩ } := dif_pos hs

theorem popToPc?_eq_none (s : State) : s.popToPc? = none ↔ s.sp.val = 0 := by
  unfold popToPc?
  split <;> simp <;> omega

/-- A transfer answers its target state when every address is in range, else the fault (R54). -/
theorem transfer_cases {s t u : State} {n : Nat} (h : s.transfer n t = .next u) :
    ((n = 0 ∨ s.index.toNat + n ≤ 0x1000) ∧ u = t) ∨
    (0 < n ∧ 0x1000 < s.index.toNat + n ∧ u = s.raise .memoryAddressOutOfRange) := by
  unfold transfer at h
  split at h
  · rename_i hr; exact .inl ⟨(inRange_iff _ _).1 hr, by simpa using h.symm⟩
  · rename_i hr
    rw [inRange_iff] at hr
    exact .inr ⟨by omega, by omega, by simpa using h.symm⟩

theorem transfer_of_inRange {s : State} {n : Nat} (t : State) (h : n = 0 ∨ s.index.toNat + n ≤ 0x1000) :
    s.transfer n t = .next t := if_pos ((inRange_iff _ _).2 h)

theorem transfer_of_outside {s : State} {n : Nat} (t : State) (h0 : 0 < n) (h : 0x1000 < s.index.toNat + n) :
    s.transfer n t = .next (s.raise .memoryAddressOutOfRange) :=
  if_neg (by rw [inRange_iff]; omega)

/-- The random byte supplied by the host is the one used (R33). -/
theorem rnd_of_some {s : State} {r : Byte} (h : s.rndIn = some r) : s.rnd = r := by simp [rnd, h]

end State

theorem flagByte_eq (b : Bool) : flagByte b = 0 ∨ flagByte b = 1 := by cases b <;> simp [flagByte]

/-- A key operand is the register's value exactly when that is at most 15 (R160). -/
theorem keyOperand_eq_some (v : Byte) (k : KeyNum) : keyOperand v = some k ↔ v.toNat = k.val := by
  unfold keyOperand
  split
  · simp [Fin.ext_iff]
  · simp; omega

theorem keyOperand_eq_none (v : Byte) : keyOperand v = none ↔ 15 < v.toNat := by
  unfold keyOperand
  split <;> simp <;> omega

/-- The scan finds the lowest pressed key up to its bound (R163). -/
theorem scanKeys_eq_some {key : Vector Bool 16} {last k : KeyNum} (h : scanKeys key last = some k) :
    k ≤ last ∧ key[k] = true ∧ ∀ j : KeyNum, j < k → key[j] = false := by
  obtain ⟨hk, as, bs, hl, has⟩ := List.find?_eq_some_iff_append.1 h
  simp only [Bool.and_eq_true, decide_eq_true_eq] at hk
  refine ⟨hk.1, hk.2, fun j hj => ?_⟩
  have hs : (List.finRange 16).Pairwise (· < ·) := by decide
  have hjm : j ∈ as ++ k :: bs := hl ▸ List.mem_finRange j
  rw [hl] at hs
  rcases List.mem_append.1 hjm with hm | hm
  · have := has j hm
    simp only [Bool.not_eq_true', Bool.and_eq_false_iff, decide_eq_false_iff_not] at this
    rcases this with h1 | h1
    · exact absurd (le_of_lt (lt_of_lt_of_le hj hk.1)) h1
    · exact h1
  · rcases List.mem_cons.1 hm with e | e
    · exact absurd hj (by rw [e]; exact lt_irrefl _)
    · have := (List.pairwise_append.1 hs).2.1
      exact absurd hj (not_lt_of_gt ((List.pairwise_cons.1 this).1 j e))

theorem scanKeys_eq_none {key : Vector Bool 16} {last : KeyNum} :
    scanKeys key last = none ↔ ∀ k : KeyNum, k ≤ last → key[k] = false := by
  simp [scanKeys, List.find?_eq_none]

@[simp] theorem registersTo_length (x : Vector Byte 16) (last : RegNum) :
    (registersTo x last).length = last.val + 1 := by
  simp [registersTo]

theorem registersTo_getElem (x : Vector Byte 16) (last : RegNum) (i : Nat) (h : i < (registersTo x last).length) :
    (registersTo x last)[i] = x[i]'(by simp at h; omega) := by
  simp [registersTo]

theorem loadRegistersTo_getElem (x : Vector Byte 16) (m : Memory) (a : Nat) (last i : RegNum) :
    (loadRegistersTo x m a last)[i] = if i ≤ last then m.read (a + i.val) else x[i] := by
  simp [loadRegistersTo]

@[simp] theorem decimalDigits_length (v : Byte) : (decimalDigits v).length = 3 := rfl

theorem countDown_toNat (v : Byte) : (countDown v).toNat = v.toNat - 1 := by
  unfold countDown
  split
  · rename_i h; subst h; rfl
  · rename_i h
    have : v.toNat ≠ 0 := fun e => h (by simpa using BitVec.eq_of_toNat_eq (y := 0#8) (by simpa using e))
    have := v.isLt
    bv_omega

end Sys2Proof.Machine
end

