-- ==== Sys2Proof/Laws/Exec.lean ====
section
/-! SUPPORT. What each instruction answers, as one equation over the shared operations, and what a step can do, said once. -/

namespace Sys2Proof.Machine

/-! The meanings of the instructions that always answer the same update. -/

theorem exec_clearDisplay (z : BitVec 8) (s : State) : exec (.clearDisplay z) s = .next (s.setFb Framebuffer.blank) := rfl
theorem exec_jump (a : BitVec 12) (s : State) : exec (.jump a) s = .next (s.setPc (address a)) := rfl
theorem exec_skipEqImm (x : RegNum) (k : Byte) (s : State) : exec (.skipEqImm x k) s = .next (s.skipIf (s.reg x == k)) := rfl
theorem exec_skipNeImm (x : RegNum) (k : Byte) (s : State) : exec (.skipNeImm x k) s = .next (s.skipIf (s.reg x != k)) := rfl
theorem exec_skipEqReg (x y : RegNum) (z : BitVec 4) (s : State) :
    exec (.skipEqReg x y z) s = .next (s.skipIf (s.reg x == s.reg y)) := rfl
theorem exec_skipNeReg (x y : RegNum) (z : BitVec 4) (s : State) :
    exec (.skipNeReg x y z) s = .next (s.skipIf (s.reg x != s.reg y)) := rfl
theorem exec_jumpOffset (a : BitVec 12) (s : State) :
    exec (.jumpOffset a) s = .next (s.setPc (byteToWord (s.reg 0) + address a)) := rfl
theorem exec_loadImm (x : RegNum) (k : Byte) (s : State) : exec (.loadImm x k) s = .next (s.setReg x k) := rfl
theorem exec_addImm (x : RegNum) (k : Byte) (s : State) : exec (.addImm x k) s = .next (s.setReg x (s.reg x + k)) := rfl
theorem exec_copy (x y : RegNum) (s : State) : exec (.copy x y) s = .next (s.setReg x (s.reg y)) := rfl
theorem exec_orReg (x y : RegNum) (s : State) : exec (.orReg x y) s = .next (s.setReg x (s.reg x ||| s.reg y)) := rfl
theorem exec_andReg (x y : RegNum) (s : State) : exec (.andReg x y) s = .next (s.setReg x (s.reg x &&& s.reg y)) := rfl
theorem exec_xorReg (x y : RegNum) (s : State) : exec (.xorReg x y) s = .next (s.setReg x (s.reg x ^^^ s.reg y)) := rfl
theorem exec_addReg (x y : RegNum) (s : State) :
    exec (.addReg x y) s = .next (s.setResultAndFlag x (s.reg x + s.reg y) (carryFlag (s.reg x) (s.reg y))) := rfl
theorem exec_subReg (x y : RegNum) (s : State) :
    exec (.subReg x y) s = .next (s.setResultAndFlag x (s.reg x - s.reg y) (greaterFlag (s.reg x) (s.reg y))) := rfl
theorem exec_shiftRight (x y : RegNum) (s : State) :
    exec (.shiftRight x y) s = .next (s.setResultAndFlag x (s.reg x >>> 1) (lowBitFlag (s.reg x))) := rfl
theorem exec_subRegRev (x y : RegNum) (s : State) :
    exec (.subRegRev x y) s = .next (s.setResultAndFlag x (s.reg y - s.reg x) (greaterFlag (s.reg y) (s.reg x))) := rfl
theorem exec_shiftLeft (x y : RegNum) (s : State) :
    exec (.shiftLeft x y) s = .next (s.setResultAndFlag x (s.reg x <<< 1) (highBitFlag (s.reg x))) := rfl
theorem exec_randomAnd (x : RegNum) (k : Byte) (s : State) : exec (.randomAnd x k) s = .next (s.setReg x (s.rnd &&& k)) := rfl
theorem exec_setIndex (a : BitVec 12) (s : State) : exec (.setIndex a) s = .next (s.setIndex (address a)) := rfl
theorem exec_addIndex (x : RegNum) (s : State) :
    exec (.addIndex x) s = .next (s.setIndex (s.index + byteToWord (s.reg x))) := rfl
theorem exec_fontChar (x : RegNum) (s : State) : exec (.fontChar x) s = .next (s.setIndex (glyphAddress (s.reg x))) := rfl
theorem exec_getDelay (x : RegNum) (s : State) : exec (.getDelay x) s = .next (s.setReg x s.dt) := rfl
theorem exec_setDelay (x : RegNum) (s : State) : exec (.setDelay x) s = .next (s.setDt (s.reg x)) := rfl
theorem exec_setSound (x : RegNum) (s : State) : exec (.setSound x) s = .next (s.setSt (s.reg x)) := rfl
theorem exec_undefinedNop (w : Word) (s : State) : exec (.undefinedNop w) s = .next s := rfl

/-! The meanings with a case in them, by case. -/

theorem exec_ret_cases {z : BitVec 8} {s t : State} (h : exec (.ret z) s = .next t) :
    s.popToPc? = some t ∨ (s.sp.val = 0 ∧ t = s.raise .stackUnderflow) := by
  simp only [exec, execRet] at h
  split at h
  · rename_i u hu
    injection h with h; exact .inl (h ▸ hu)
  · rename_i hn
    injection h with h; exact .inr ⟨(State.popToPc?_eq_none s).1 hn, h.symm⟩

theorem exec_call_cases {a : BitVec 12} {s t : State} (h : exec (.call a) s = .next t) :
    (∃ u, s.push? s.pc = some u ∧ t = u.setPc (address a)) ∨ (s.sp.val = 16 ∧ t = s.raise .stackOverflow) := by
  simp only [exec, execCall] at h
  split at h
  · rename_i u hu
    injection h with h; exact .inl ⟨u, hu, h.symm⟩
  · rename_i hn
    injection h with h; exact .inr ⟨(State.push?_eq_none s _).1 hn, h.symm⟩

theorem skipOnKey_cases {wanted : Bool} {x : RegNum} {s t : State} (h : skipOnKey wanted x s = .next t) :
    (∃ k : KeyNum, (s.reg x).toNat = k.val ∧ t = s.skipIf (s.key[k] == wanted)) ∨
    (15 < (s.reg x).toNat ∧ t = s.raise .keyIndexOutOfRange) := by
  unfold skipOnKey at h
  split at h
  · rename_i k hk
    injection h with h; exact .inl ⟨k, (keyOperand_eq_some _ _).1 hk, h.symm⟩
  · rename_i hn
    injection h with h; exact .inr ⟨(keyOperand_eq_none _).1 hn, h.symm⟩

theorem waitKeyUpTo_cases {last : KeyNum} {x : RegNum} {s t : State} (h : waitKeyUpTo last x s = .next t) :
    (∃ k : KeyNum, k ≤ last ∧ s.key[k] = true ∧ (∀ j : KeyNum, j < k → s.key[j] = false) ∧ t = s.setReg x (keyByte k)) ∨
    ((∀ k : KeyNum, k ≤ last → s.key[k] = false) ∧ t = s.setPc (s.pc - 2)) := by
  unfold waitKeyUpTo at h
  split at h
  · rename_i k hk
    obtain ⟨h1, h2, h3⟩ := scanKeys_eq_some hk
    injection h with h; exact .inl ⟨k, h1, h2, h3, h.symm⟩
  · rename_i hn
    injection h with h; exact .inr ⟨scanKeys_eq_none.1 hn, h.symm⟩

/-! The step. -/

/-- The program-counter check, as arithmetic (R53, R70 line 2). -/
theorem fetchable_iff (s : State) : s.fetchable = true ↔ s.pc.toNat ≤ 4094 ∧ s.pc.toNat % 2 = 0 := by
  have e : s.pc.getLsbD 0 = decide (s.pc.toNat % 2 = 1) := by
    simp [BitVec.getLsbD, Nat.testBit_zero]
  simp only [State.fetchable, e, Bool.and_eq_true, decide_eq_true_eq, Bool.not_eq_true', decide_eq_false_iff_not]
  omega

/-- What a step can do, over any way to execute: nothing, when FAULTED; the program-counter fault; or one instruction and the end of the
step. -/
theorem cycleBy_cases {execute : Instr → State → Result} {s t : State} (h : cycleBy execute s = .next t) :
    (s.runState = .faulted ∧ t = s) ∨
    (s.runState = .running ∧ s.fetchable = false ∧ t = s.raise .invalidProgramCounter) ∨
    (s.runState = .running ∧ s.fetchable = true ∧
      ∃ s1, execute (decode s.fetchWord) (s.latch s.fetchWord) = .next s1 ∧ t = endStep s s1) := by
  unfold cycleBy at h
  split at h
  · rename_i hr; injection h with h; exact .inl ⟨hr, h.symm⟩
  · rename_i hr
    split at h
    · rename_i hf
      split at h
      · rename_i s1 he
        injection h with h; exact .inr (.inr ⟨hr, hf, s1, he, h.symm⟩)
      · cases h
      · cases h
    · rename_i hf; injection h with h
      exact .inr (.inl ⟨hr, by simpa using hf, h.symm⟩)

/-- A running machine at an acceptable `pc` runs the decoded instruction, whatever the way to execute. -/
theorem cycleBy_of_exec {execute : Instr → State → Result} {s s1 : State} (hr : s.runState = .running) (hf : s.fetchable = true)
    (he : execute (decode s.fetchWord) (s.latch s.fetchWord) = .next s1) : cycleBy execute s = .next (endStep s s1) := by
  simp only [cycleBy, hr, hf, he, if_true]

/-- A step depends on the way to execute only at the instruction it executes. -/
theorem cycleBy_congr {execute execute' : Instr → State → Result} {s : State}
    (h : execute (decode s.fetchWord) (s.latch s.fetchWord) = execute' (decode s.fetchWord) (s.latch s.fetchWord)) :
    cycleBy execute s = cycleBy execute' s := by
  simp only [cycleBy, h]

/-- What a step can do. -/
theorem step_cases {s t : State} (h : step s = .next t) :
    (s.runState = .faulted ∧ t = s) ∨
    (s.runState = .running ∧ s.fetchable = false ∧ t = s.raise .invalidProgramCounter) ∨
    (s.runState = .running ∧ s.fetchable = true ∧
      ∃ s1, exec (decode s.fetchWord) (s.latch s.fetchWord) = .next s1 ∧ t = endStep s s1) := cycleBy_cases h

/-- A running machine at an acceptable `pc` runs the decoded instruction. -/
theorem step_of_exec {s s1 : State} (hr : s.runState = .running) (hf : s.fetchable = true)
    (he : exec (decode s.fetchWord) (s.latch s.fetchWord) = .next s1) : step s = .next (endStep s s1) := cycleBy_of_exec hr hf he

/-! The execution at a value of `WAITKEY_LAST`. -/

theorem execWith_waitKey (last : KeyNum) (x : RegNum) (s : State) : execWith last (.waitKey x) s = waitKeyUpTo last x s := rfl

theorem execWith_of_ne (last : KeyNum) {i : Instr} (s : State) (h : ∀ x, i ≠ .waitKey x) : execWith last i s = exec i s := by
  cases i <;> first | rfl | exact absurd rfl (h _)

@[simp] theorem endStep_of_running (s0 : State) {s1 : State} (h : s1.runState = .running) :
    endStep s0 s1 = s1.tick.nextRnd := by simp [endStep, h]

@[simp] theorem endStep_raise (s0 s1 : State) (r : FaultReason) : endStep s0 (s1.raise r) = s0.raise r := rfl

end Sys2Proof.Machine
end

