-- ==== Sys2Proof/Laws/Fields.lean ====
section
/-! SUPPORT. The fields of a packed word are what was packed, a word is the packing of its fields, and its two bytes make it up
again. -/

namespace Sys2Proof

/-! Bits of a packed word. -/

theorem getLsbD_packA (c : BitVec 4) (a : BitVec 12) (i : Nat) :
    (packA c a).getLsbD i = if i < 12 then a.getLsbD i else c.getLsbD (i - 12) :=
  BitVec.getLsbD_append

theorem getLsbD_bigEndian (hi lo : Byte) (i : Nat) :
    (bigEndian hi lo).getLsbD i = if i < 8 then lo.getLsbD i else hi.getLsbD (i - 8) :=
  BitVec.getLsbD_append

theorem getLsbD_xkk (x : RegNum) (kk : BitVec 8) (i : Nat) :
    (BitVec.ofFin (w := 4) x ++ kk : BitVec 12).getLsbD i
      = if i < 8 then kk.getLsbD i else (BitVec.ofFin (w := 4) x).getLsbD (i - 8) :=
  BitVec.getLsbD_append

theorem getLsbD_xyn (x y : RegNum) (n : BitVec 4) (i : Nat) :
    (BitVec.ofFin (w := 4) x ++ (BitVec.ofFin (w := 4) y ++ n : BitVec 8) : BitVec 12).getLsbD i
      = if i < 4 then n.getLsbD i else if i < 8 then (BitVec.ofFin (w := 4) y).getLsbD (i - 4)
        else (BitVec.ofFin (w := 4) x).getLsbD (i - 8) := by
  refine (getLsbD_xkk _ _ i).trans ?_
  have : (BitVec.ofFin (w := 4) y ++ n : BitVec 8).getLsbD i
      = if i < 4 then n.getLsbD i else (BitVec.ofFin (w := 4) y).getLsbD (i - 4) := BitVec.getLsbD_append
  rw [this]
  split <;> split <;> first | rfl | omega

theorem getLsbD_midn (m : BitVec 8) (n : BitVec 4) (i : Nat) :
    (m ++ n : BitVec 12).getLsbD i = if i < 4 then n.getLsbD i else m.getLsbD (i - 4) :=
  BitVec.getLsbD_append

theorem packI_eq (c : BitVec 4) (x : RegNum) (kk : BitVec 8) :
    packI c x kk = packA c (BitVec.ofFin (w := 4) x ++ kk : BitVec 12) := rfl

theorem packR_eq (c : BitVec 4) (x y : RegNum) (n : BitVec 4) :
    packR c x y n = packA c (BitVec.ofFin (w := 4) x ++ (BitVec.ofFin (w := 4) y ++ n : BitVec 8) : BitVec 12) := rfl

theorem packZ_eq (m : BitVec 8) (n : BitVec 4) : packZ m n = packA 0 (m ++ n : BitVec 12) := rfl

/-! Format `A`. -/

@[simp] theorem catOf_packA (c : BitVec 4) (a : BitVec 12) : catOf (packA c a) = c := by
  apply BitVec.eq_of_getLsbD_eq; intro i hi
  simp [catOf, getLsbD_packA, hi]

@[simp] theorem nnnOf_packA (c : BitVec 4) (a : BitVec 12) : nnnOf (packA c a) = a := by
  apply BitVec.eq_of_getLsbD_eq; intro i hi
  simp [nnnOf, getLsbD_packA, hi]

/-- Two words are equal when their bits below 16 are. -/
theorem packA_fields (w : Word) : packA (catOf w) (nnnOf w) = w := by
  apply BitVec.eq_of_getLsbD_eq; intro i hi
  simp only [getLsbD_packA, catOf, nnnOf, BitVec.getLsbD_extractLsb']
  split
  · rename_i h; simp [h]
  · have e : 12 + (i - 12) = i := by omega
    have : i - 12 < 4 := by omega
    simp [e, this]

/-! Formats `I` and `K`. -/

@[simp] theorem catOf_packI (c : BitVec 4) (x : RegNum) (kk : BitVec 8) : catOf (packI c x kk) = c := by
  rw [packI_eq, catOf_packA]

@[simp] theorem kkOf_packI (c : BitVec 4) (x : RegNum) (kk : BitVec 8) : kkOf (packI c x kk) = kk := by
  apply BitVec.eq_of_getLsbD_eq; intro i hi
  have : i < 12 := by omega
  rw [packI_eq]
  simp only [kkOf, BitVec.getLsbD_extractLsb', hi, getLsbD_packA, getLsbD_xkk, Nat.zero_add, this, if_true, decide_true,
    Bool.true_and]

@[simp] theorem xOf_packI (c : BitVec 4) (x : RegNum) (kk : BitVec 8) : xOf (packI c x kk) = x := by
  have : (packI c x kk).extractLsb' 8 4 = BitVec.ofFin x := by
    apply BitVec.eq_of_getLsbD_eq; intro i hi
    have h : 8 + i < 12 := by omega
    have h' : ¬ 8 + i < 8 := by omega
    rw [packI_eq]
    simp only [BitVec.getLsbD_extractLsb', hi, getLsbD_packA, getLsbD_xkk, h, h', if_true, if_false, decide_true,
      Bool.true_and, Nat.add_sub_cancel_left]
  simp only [xOf, this]

theorem packI_fields (w : Word) : packI (catOf w) (xOf w) (kkOf w) = w := by
  rw [packI_eq]
  conv => rhs; rw [← packA_fields w]
  congr 1
  apply BitVec.eq_of_getLsbD_eq; intro i hi
  replace hi : i < 12 := hi
  refine (getLsbD_xkk _ _ i).trans ?_
  simp only [xOf, kkOf, nnnOf, BitVec.ofFin_toFin, BitVec.getLsbD_extractLsb', hi, decide_true, Bool.true_and]
  split
  · rename_i h; simp [h]
  · have e : 8 + (i - 8) = 0 + i := by omega
    have : i - 8 < 4 := by omega
    simp [e, this]

/-! Formats `R`, `R8` and `D`. -/

@[simp] theorem catOf_packR (c : BitVec 4) (x y : RegNum) (n : BitVec 4) : catOf (packR c x y n) = c := by
  rw [packR_eq, catOf_packA]

@[simp] theorem nOf_packR (c : BitVec 4) (x y : RegNum) (n : BitVec 4) : nOf (packR c x y n) = n := by
  apply BitVec.eq_of_getLsbD_eq; intro i hi
  have : i < 12 := by omega
  rw [packR_eq]
  simp only [nOf, BitVec.getLsbD_extractLsb', hi, getLsbD_packA, getLsbD_xyn, Nat.zero_add, this, if_true, decide_true,
    Bool.true_and]

@[simp] theorem yOf_packR (c : BitVec 4) (x y : RegNum) (n : BitVec 4) : yOf (packR c x y n) = y := by
  have : (packR c x y n).extractLsb' 4 4 = BitVec.ofFin y := by
    apply BitVec.eq_of_getLsbD_eq; intro i hi
    have h : 4 + i < 12 := by omega
    have h' : ¬ 4 + i < 4 := by omega
    have h'' : 4 + i < 8 := by omega
    rw [packR_eq]
    simp only [BitVec.getLsbD_extractLsb', hi, getLsbD_packA, getLsbD_xyn, h, h', h'', if_true, if_false, decide_true,
      Bool.true_and, Nat.add_sub_cancel_left]
  simp only [yOf, this]

@[simp] theorem xOf_packR (c : BitVec 4) (x y : RegNum) (n : BitVec 4) : xOf (packR c x y n) = x := by
  have : (packR c x y n).extractLsb' 8 4 = BitVec.ofFin x := by
    apply BitVec.eq_of_getLsbD_eq; intro i hi
    have h : 8 + i < 12 := by omega
    have h' : ¬ 8 + i < 4 := by omega
    have h'' : ¬ 8 + i < 8 := by omega
    rw [packR_eq]
    simp only [BitVec.getLsbD_extractLsb', hi, getLsbD_packA, getLsbD_xyn, h, h', h'', if_true, if_false, decide_true,
      Bool.true_and, Nat.add_sub_cancel_left]
  simp only [xOf, this]

theorem packR_fields (w : Word) : packR (catOf w) (xOf w) (yOf w) (nOf w) = w := by
  rw [packR_eq]
  conv => rhs; rw [← packA_fields w]
  congr 1
  apply BitVec.eq_of_getLsbD_eq; intro i hi
  replace hi : i < 12 := hi
  refine (getLsbD_xyn _ _ _ i).trans ?_
  simp only [xOf, yOf, nOf, nnnOf, BitVec.ofFin_toFin, BitVec.getLsbD_extractLsb', hi, decide_true, Bool.true_and]
  split
  · rename_i h; simp [h]
  · split
    · have e : 4 + (i - 4) = 0 + i := by omega
      have : i - 4 < 4 := by omega
      simp [e, this]
    · have e : 8 + (i - 8) = 0 + i := by omega
      have : i - 8 < 4 := by omega
      simp [e, this]

/-! Format `Z`. -/

@[simp] theorem catOf_packZ (m : BitVec 8) (n : BitVec 4) : catOf (packZ m n) = 0 := by
  rw [packZ_eq, catOf_packA]

@[simp] theorem nOf_packZ (m : BitVec 8) (n : BitVec 4) : nOf (packZ m n) = n := by
  apply BitVec.eq_of_getLsbD_eq; intro i hi
  have : i < 12 := by omega
  rw [packZ_eq]
  simp only [nOf, BitVec.getLsbD_extractLsb', hi, getLsbD_packA, getLsbD_midn, Nat.zero_add, this, if_true, decide_true,
    Bool.true_and]

@[simp] theorem midOf_packZ (m : BitVec 8) (n : BitVec 4) : midOf (packZ m n) = m := by
  apply BitVec.eq_of_getLsbD_eq; intro i hi
  have h : 4 + i < 12 := by omega
  have h' : ¬ 4 + i < 4 := by omega
  rw [packZ_eq]
  simp only [midOf, BitVec.getLsbD_extractLsb', hi, getLsbD_packA, getLsbD_midn, h, h', if_true, if_false, decide_true,
    Bool.true_and, Nat.add_sub_cancel_left]

theorem packZ_fields (w : Word) (h : catOf w = 0) : packZ (midOf w) (nOf w) = w := by
  rw [packZ_eq]
  conv => rhs; rw [← packA_fields w, h]
  congr 1
  apply BitVec.eq_of_getLsbD_eq; intro i hi
  simp only [getLsbD_midn, midOf, nOf, nnnOf, BitVec.getLsbD_extractLsb', hi, decide_true, Bool.true_and]
  split
  · rename_i h; simp [h]
  · have e : 4 + (i - 4) = 0 + i := by omega
    have : i - 4 < 8 := by omega
    simp [e, this]

/-! Bytes. -/

@[simp] theorem bigEndian_bytes (w : Word) : bigEndian (highByte w) (lowByte w) = w := by
  apply BitVec.eq_of_getLsbD_eq; intro i hi
  simp only [getLsbD_bigEndian, highByte, lowByte, BitVec.getLsbD_extractLsb']
  split
  · rename_i h; simp [h]
  · have e : 8 + (i - 8) = i := by omega
    have : i - 8 < 8 := by omega
    simp [e, this]

@[simp] theorem highByte_bigEndian (hi lo : Byte) : highByte (bigEndian hi lo) = hi := by
  apply BitVec.eq_of_getLsbD_eq; intro i h
  simp [highByte, getLsbD_bigEndian, h]

@[simp] theorem lowByte_bigEndian (hi lo : Byte) : lowByte (bigEndian hi lo) = lo := by
  apply BitVec.eq_of_getLsbD_eq; intro i h
  simp [lowByte, getLsbD_bigEndian, h]

/-! Fields as arithmetic, for `omega`. -/

theorem catOf_toNat (w : Word) : (catOf w).toNat = w.toNat / 4096 := by
  simp only [catOf, BitVec.extractLsb'_toNat, Nat.shiftRight_eq_div_pow]; omega

theorem xOf_val (w : Word) : (xOf w).val = w.toNat / 256 % 16 := by
  simp only [xOf, BitVec.val_toFin, BitVec.extractLsb'_toNat, Nat.shiftRight_eq_div_pow]

theorem yOf_val (w : Word) : (yOf w).val = w.toNat / 16 % 16 := by
  simp only [yOf, BitVec.val_toFin, BitVec.extractLsb'_toNat, Nat.shiftRight_eq_div_pow]

theorem nOf_toNat (w : Word) : (nOf w).toNat = w.toNat % 16 := by
  simp only [nOf, BitVec.extractLsb'_toNat, Nat.shiftRight_eq_div_pow]; omega

theorem kkOf_toNat (w : Word) : (kkOf w).toNat = w.toNat % 256 := by
  simp only [kkOf, BitVec.extractLsb'_toNat]; rfl

theorem nnnOf_toNat (w : Word) : (nnnOf w).toNat = w.toNat % 4096 := by
  simp only [nnnOf, BitVec.extractLsb'_toNat]; rfl

end Sys2Proof
end

