-- ==== Sys2Proof/Laws/Frame.lean ====
section
/-! SUPPORT. The frame of each update; what each instruction can do, said once (a completed effect within its writers, or the one fault
that is due); and the same of a step that executes it. -/

namespace Sys2Proof.Machine

/-! The frame of each update of the state. -/

theorem UnchangedExcept.rfl_of (l : List Component) (s : State) : UnchangedExcept l s s := by
  intro c _; cases c <;> simp [Component.same]

theorem UnchangedExcept.mono {l l' : List Component} {s t : State} (h : UnchangedExcept l s t) (hl : ∀ c ∈ l, c ∈ l') :
    UnchangedExcept l' s t := fun c hc => h c fun hm => hc (hl c hm)

theorem unchanged_setReg (s : State) (r : RegNum) (v : Byte) : UnchangedExcept [.regs] s (s.setReg r v) := by
  intro c hc; cases c <;> simp_all [Component.same]

theorem unchanged_setRegs (s : State) (x : Vector Byte 16) : UnchangedExcept [.regs] s (s.setRegs x) := by
  intro c hc; cases c <;> simp_all [Component.same]

theorem unchanged_setIndex (s : State) (v : Word) : UnchangedExcept [.index] s (s.setIndex v) := by
  intro c hc; cases c <;> simp_all [Component.same]

theorem unchanged_setPc (s : State) (v : Word) : UnchangedExcept [.pc] s (s.setPc v) := by
  intro c hc; cases c <;> simp_all [Component.same]

theorem unchanged_setDt (s : State) (v : Byte) : UnchangedExcept [.dt] s (s.setDt v) := by
  intro c hc; cases c <;> simp_all [Component.same]

theorem unchanged_setSt (s : State) (v : Byte) : UnchangedExcept [.st] s (s.setSt v) := by
  intro c hc; cases c <;> simp_all [Component.same]

theorem unchanged_setFb (s : State) (fb : Framebuffer) : UnchangedExcept [.fb] s (s.setFb fb) := by
  intro c hc; cases c <;> simp_all [Component.same]

theorem unchanged_setMem (s : State) (m : Memory) : UnchangedExcept [.mem] s (s.setMem m) := by
  intro c hc; cases c <;> simp_all [Component.same]

theorem unchanged_skipIf (s : State) (c : Bool) : UnchangedExcept [.pc] s (s.skipIf c) := by
  intro c hc; cases c <;> simp_all [Component.same]

theorem unchanged_setResultAndFlag (s : State) (r : RegNum) (v : Byte) (b : Bool) : UnchangedExcept [.regs] s (s.setResultAndFlag r v b) := by
  intro c hc; cases c <;> simp_all [Component.same]

theorem unchanged_setFb_setFlag (s : State) (fb : Framebuffer) (b : Bool) : UnchangedExcept [.fb, .regs] s ((s.setFb fb).setFlag b) := by
  intro c hc; cases c <;> simp_all [Component.same]

theorem unchanged_raise (s : State) (r : FaultReason) : UnchangedExcept [.runState, .faultReason] s (s.raise r) := by
  intro c hc; cases c <;> simp_all [Component.same]

@[simp] theorem State.skipIf_reg (s : State) (c : Bool) (q : RegNum) : (s.skipIf c).reg q = s.reg q := by cases c <;> rfl

/-! The fault due, for the four transfers. -/

theorem faultDue_draw (x y : RegNum) (n : BitVec 4) (s : State) : faultDue (.draw x y n) s =
    if 0 < n.toNat ∧ 0x1000 < s.index.toNat + n.toNat then .memoryAddressOutOfRange else .noFault := rfl

theorem faultDue_storeBcd (x : RegNum) (s : State) : faultDue (.storeBcd x) s =
    if 0 < 3 ∧ 0x1000 < s.index.toNat + 3 then .memoryAddressOutOfRange else .noFault := rfl

theorem faultDue_storeRegs (x : RegNum) (s : State) : faultDue (.storeRegs x) s =
    if 0 < x.val + 1 ∧ 0x1000 < s.index.toNat + (x.val + 1) then .memoryAddressOutOfRange else .noFault := rfl

theorem faultDue_loadRegs (x : RegNum) (s : State) : faultDue (.loadRegs x) s =
    if 0 < x.val + 1 ∧ 0x1000 < s.index.toNat + (x.val + 1) then .memoryAddressOutOfRange else .noFault := rfl

/-- The fault due does not depend on the latch. -/
@[simp] theorem faultDue_latch (i : Instr) (s : State) (w : Word) : faultDue i (s.latch w) = faultDue i s := by cases i <;> rfl

/-! What an instruction can do. -/

/-- `i` took `s` to `t` within its frame: the items and the registers it may write, and no fault. -/
def Completed (i : Instr) (s t : State) : Prop :=
  UnchangedExcept (writtenBy i) s t ∧ (∀ q, ¬ mayWriteReg i q → t.reg q = s.reg q) ∧ t.runState = s.runState

/-- An instruction raises the fault that is due, changing nothing else, or completes within its frame. -/
theorem exec_cases {i : Instr} {s t : State} (h : exec i s = .next t) :
    (faultDue i s ≠ .noFault ∧ t = s.raise (faultDue i s)) ∨ (faultDue i s = .noFault ∧ Completed i s t) := by
  cases i with
  | ret z =>
    rcases exec_ret_cases h with e | ⟨e, rfl⟩
    · obtain ⟨hs, rfl⟩ := State.popToPc?_eq_some e
      refine .inr ⟨if_neg (by omega), ?_, fun _ _ => rfl, rfl⟩
      intro c hc; clear * - hc; cases c <;> simp_all [Component.same, writtenBy]
    · simp [faultDue, e]
  | call a =>
    rcases exec_call_cases h with ⟨u, e, rfl⟩ | ⟨e, rfl⟩
    · obtain ⟨hs, rfl⟩ := State.push?_eq_some e
      refine .inr ⟨if_neg (by omega), ?_, fun _ _ => rfl, rfl⟩
      intro c hc; clear * - hc; cases c <;> simp_all [Component.same, writtenBy]
    · simp [faultDue, e]
  | skipIfKey x =>
    rcases skipOnKey_cases h with ⟨k, e, rfl⟩ | ⟨e, rfl⟩
    · exact .inr ⟨if_neg (by omega), unchanged_skipIf _ _, by simp, by simp⟩
    · simp [faultDue, e]
  | skipIfNotKey x =>
    rcases skipOnKey_cases h with ⟨k, e, rfl⟩ | ⟨e, rfl⟩
    · exact .inr ⟨if_neg (by omega), unchanged_skipIf _ _, by simp, by simp⟩
    · simp [faultDue, e]
  | waitKey x =>
    rcases waitKeyUpTo_cases h with ⟨k, _, _, _, rfl⟩ | ⟨_, rfl⟩
    · exact .inr ⟨by simp [faultDue, dataBytes], (unchanged_setReg _ _ _).mono (by simp [writtenBy]),
        fun q hq => by simp only [mayWriteReg] at hq; simp [hq], rfl⟩
    · exact .inr ⟨by simp [faultDue, dataBytes], (unchanged_setPc _ _).mono (by simp [writtenBy]), fun _ _ => rfl, rfl⟩
  | draw x y n =>
    rcases State.transfer_cases h with ⟨e, rfl⟩ | ⟨e1, e2, rfl⟩
    · exact .inr ⟨if_neg (by simp only [dataBytes]; omega), unchanged_setFb_setFlag _ _ _,
        fun q hq => by simp only [mayWriteReg] at hq; simp [hq]; rfl, by simp⟩
    · rw [faultDue_draw, if_pos ⟨e1, e2⟩]; exact .inl ⟨by simp, rfl⟩
  | storeBcd x =>
    rcases State.transfer_cases h with ⟨e, rfl⟩ | ⟨e1, e2, rfl⟩
    · exact .inr ⟨if_neg (by simp only [dataBytes]; omega), unchanged_setMem _ _, fun _ _ => rfl, State.setMem_runState _ _⟩
    · rw [faultDue_storeBcd, if_pos ⟨e1, e2⟩]; exact .inl ⟨by simp, rfl⟩
  | storeRegs x =>
    rcases State.transfer_cases h with ⟨e, rfl⟩ | ⟨e1, e2, rfl⟩
    · exact .inr ⟨if_neg (by simp only [dataBytes]; omega), unchanged_setMem _ _, fun _ _ => rfl, State.setMem_runState _ _⟩
    · rw [faultDue_storeRegs, if_pos ⟨e1, e2⟩]; exact .inl ⟨by simp, rfl⟩
  | loadRegs x =>
    rcases State.transfer_cases h with ⟨e, rfl⟩ | ⟨e1, e2, rfl⟩
    · exact .inr ⟨if_neg (by simp only [dataBytes]; omega), unchanged_setRegs _ _,
        fun _ hq => (loadRegistersTo_getElem _ _ _ _ _).trans (if_neg hq), State.setRegs_runState _ _⟩
    · rw [faultDue_loadRegs, if_pos ⟨e1, e2⟩]; exact .inl ⟨by simp, rfl⟩
  | _ =>
    injection h with h; subst h
    refine .inr ⟨by simp [faultDue, dataBytes], ?_, fun q hq => ?_, ?_⟩
    · intro c hc; cases c <;> simp_all [Component.same, writtenBy]
    · first | rfl | (simp; done) | (simp only [mayWriteReg] at hq; simp_all)
    · first | rfl | simp

/-- Every instruction answers a next state. -/
theorem exec_answers (i : Instr) (s : State) : ∃ t, exec i s = .next t := by
  cases i <;> simp only [exec, execRet, execCall, execSkipIfKey, execSkipIfNotKey, skipOnKey, execWaitKey, waitKeyUpTo, execDraw,
    execStoreBcd, execStoreRegs, execLoadRegs, State.transfer] <;> first | exact ⟨_, rfl⟩ | (split <;> exact ⟨_, rfl⟩)

/-! What a step that executes an instruction can do. -/

theorem AboutToExecute.fetchable {s : State} {i : Instr} (h : AboutToExecute s i) : s.fetchable = true :=
  (fetchable_iff s).2 ⟨h.2.1, h.2.2.1⟩

theorem aboutToExecute_of_fetchable {s : State} (hr : s.runState = .running) (hf : s.fetchable = true) :
    AboutToExecute s (decode s.fetchWord) := ⟨hr, ((fetchable_iff s).1 hf).1, ((fetchable_iff s).1 hf).2, rfl⟩

theorem step_of_bad_pc {s : State} (hr : s.runState = .running) (hf : s.fetchable = false) :
    step s = .next (s.raise .invalidProgramCounter) := by simp [step, cycle, cycleBy, hr, hf]

theorem step_of_faulted {s : State} (hr : s.runState = .faulted) : step s = .next s := by simp [step, cycle, cycleBy, hr]

/-- The step ends the instruction's own state. -/
theorem step_of_aboutToExecute {s s1 : State} {i : Instr} (h : AboutToExecute s i)
    (he : exec i (s.latch s.fetchWord) = .next s1) : step s = .next (endStep s s1) :=
  step_of_exec h.1 h.fetchable (by rw [h.2.2.2]; exact he)

/-- A step that executes `i` is the instruction within its frame and then the tick, or the fault that is due. -/
theorem step_aboutToExecute_cases {s t : State} {i : Instr} (h : AboutToExecute s i) (hs : step s = .next t) :
    (∃ s1, exec i (s.latch s.fetchWord) = .next s1 ∧ Completed i (s.latch s.fetchWord) s1 ∧ s1.runState = .running ∧
      faultDue i s = .noFault ∧ t = s1.tick.nextRnd) ∨
    (faultDue i s ≠ .noFault ∧ t = s.raise (faultDue i s)) := by
  obtain ⟨s1, h1⟩ := exec_answers i (s.latch s.fetchWord)
  have h2 := step_of_aboutToExecute h h1
  rw [hs] at h2
  injection h2 with h2
  rcases exec_cases h1 with ⟨hf, rfl⟩ | ⟨hf, hc⟩
  · rw [faultDue_latch] at hf h2
    exact .inr ⟨hf, h2⟩
  · have hr : s1.runState = .running := hc.2.2.trans h.1
    rw [faultDue_latch] at hf
    exact .inl ⟨s1, h1, hc, hr, hf, by rw [h2, endStep_of_running _ hr]⟩

/-- Every instruction keeps the memory's canonical form. -/
theorem exec_keeps_wf {i : Instr} {s t : State} (h : exec i s = .next t) (hw : s.mem.wf = true) : t.mem.wf = true := by
  rcases exec_cases h with ⟨_, rfl⟩ | ⟨_, hc, _⟩
  · exact hw
  · cases i
    case storeBcd x =>
      rcases State.transfer_cases h with ⟨e, rfl⟩ | ⟨_, _, rfl⟩
      · exact Memory.writeBytes_wf hw (by simp; omega)
      · exact hw
    case storeRegs x =>
      rcases State.transfer_cases h with ⟨e, rfl⟩ | ⟨_, _, rfl⟩
      · exact Memory.writeBytes_wf hw (by simp; omega)
      · exact hw
    all_goals (rw [(hc .mem (by simp [writtenBy])).1]; exact hw)

end Sys2Proof.Machine
end

