-- ==== Sys2Proof/Laws/HostOps.lean ====
section
/-! SUPPORT. One lemma for each field under what the host does to a state between steps. -/

namespace Sys2Proof.Machine

/-! `setKeys` -/

@[simp] theorem setKeys_mem (k : BitVec 16) (s : State) : (setKeys k s).mem = s.mem := State.setKey_mem s _
@[simp] theorem setKeys_x (k : BitVec 16) (s : State) : (setKeys k s).x = s.x := State.setKey_x s _
@[simp] theorem setKeys_index (k : BitVec 16) (s : State) : (setKeys k s).index = s.index := State.setKey_index s _
@[simp] theorem setKeys_pc (k : BitVec 16) (s : State) : (setKeys k s).pc = s.pc := State.setKey_pc s _
@[simp] theorem setKeys_stack (k : BitVec 16) (s : State) : (setKeys k s).stack = s.stack := State.setKey_stack s _
@[simp] theorem setKeys_sp (k : BitVec 16) (s : State) : (setKeys k s).sp = s.sp := State.setKey_sp s _
@[simp] theorem setKeys_dt (k : BitVec 16) (s : State) : (setKeys k s).dt = s.dt := State.setKey_dt s _
@[simp] theorem setKeys_st (k : BitVec 16) (s : State) : (setKeys k s).st = s.st := State.setKey_st s _
@[simp] theorem setKeys_fb (k : BitVec 16) (s : State) : (setKeys k s).fb = s.fb := State.setKey_fb s _
@[simp] theorem setKeys_key (k : BitVec 16) (s : State) : (setKeys k s).key = Vector.ofFn fun i : KeyNum => k.getLsbD i.val := State.setKey_key s _
@[simp] theorem setKeys_ir (k : BitVec 16) (s : State) : (setKeys k s).ir = s.ir := State.setKey_ir s _
@[simp] theorem setKeys_runState (k : BitVec 16) (s : State) : (setKeys k s).runState = s.runState := State.setKey_runState s _
@[simp] theorem setKeys_faultReason (k : BitVec 16) (s : State) : (setKeys k s).faultReason = s.faultReason := State.setKey_faultReason s _
@[simp] theorem setKeys_rndIn (k : BitVec 16) (s : State) : (setKeys k s).rndIn = s.rndIn := State.setKey_rndIn s _
@[simp] theorem setKeys_draws (k : BitVec 16) (s : State) : (setKeys k s).draws = s.draws := State.setKey_draws s _

/-! `supplyRnd` -/

@[simp] theorem supplyRnd_mem (r : Byte) (s : State) : (supplyRnd r s).mem = s.mem := rfl
@[simp] theorem supplyRnd_x (r : Byte) (s : State) : (supplyRnd r s).x = s.x := rfl
@[simp] theorem supplyRnd_index (r : Byte) (s : State) : (supplyRnd r s).index = s.index := rfl
@[simp] theorem supplyRnd_pc (r : Byte) (s : State) : (supplyRnd r s).pc = s.pc := rfl
@[simp] theorem supplyRnd_stack (r : Byte) (s : State) : (supplyRnd r s).stack = s.stack := rfl
@[simp] theorem supplyRnd_sp (r : Byte) (s : State) : (supplyRnd r s).sp = s.sp := rfl
@[simp] theorem supplyRnd_dt (r : Byte) (s : State) : (supplyRnd r s).dt = s.dt := rfl
@[simp] theorem supplyRnd_st (r : Byte) (s : State) : (supplyRnd r s).st = s.st := rfl
@[simp] theorem supplyRnd_fb (r : Byte) (s : State) : (supplyRnd r s).fb = s.fb := rfl
@[simp] theorem supplyRnd_key (r : Byte) (s : State) : (supplyRnd r s).key = s.key := rfl
@[simp] theorem supplyRnd_ir (r : Byte) (s : State) : (supplyRnd r s).ir = s.ir := rfl
@[simp] theorem supplyRnd_runState (r : Byte) (s : State) : (supplyRnd r s).runState = s.runState := rfl
@[simp] theorem supplyRnd_faultReason (r : Byte) (s : State) : (supplyRnd r s).faultReason = s.faultReason := rfl
@[simp] theorem supplyRnd_rndIn (r : Byte) (s : State) : (supplyRnd r s).rndIn = some r := rfl
@[simp] theorem supplyRnd_draws (r : Byte) (s : State) : (supplyRnd r s).draws = s.draws := rfl

/-- A key after `SetKeys`, as arithmetic on the argument (R214). -/
theorem setKeys_getElem (k : BitVec 16) (s : State) (j : KeyNum) : (setKeys k s).key[j] = k.getLsbD j.val := by simp

/-- The random byte supplied is the one the coming step uses (R33). -/
@[simp] theorem supplyRnd_rnd (r : Byte) (s : State) : (supplyRnd r s).rnd = r := rfl

/-! A run, turn by turn. -/

@[simp] theorem runTurns_nil (s : State) : runTurns [] s = .next s := rfl

theorem runTurns_cons {k : BitVec 16} {r : Byte} {rest : List (BitVec 16 × Byte)} {s t : State} (h : turn k r s = .next t) :
    runTurns ((k, r) :: rest) s = runTurns rest t := by simp only [runTurns, runTurnsBy, h]

@[simp] theorem runTurnsWith_nil (last : KeyNum) (s : State) : runTurnsWith last [] s = .next s := rfl

theorem runTurnsWith_cons {last : KeyNum} {k : BitVec 16} {r : Byte} {rest : List (BitVec 16 × Byte)} {s t : State}
    (h : turnWith last k r s = .next t) : runTurnsWith last ((k, r) :: rest) s = runTurnsWith last rest t := by
  simp only [runTurnsWith, runTurnsBy, h]

end Sys2Proof.Machine
end

