-- ==== Sys2Proof/Laws/PerInstr.lean ====
section
/-! SUPPORT. Statements about every instruction as syntax, one lemma per constructor. EncodeRow: the word an instruction is written as
selects the row of the opcode map that carries its mnemonic (30_encoding.md R76). -/

namespace Sys2Proof

theorem and_eq_of_bits {w m b : Word} (h : ∀ i, i < 16 → (w.getLsbD i && m.getLsbD i) = b.getLsbD i) : w &&& m = b := by
  apply BitVec.eq_of_getLsbD_eq; intro i hi
  rw [BitVec.getLsbD_and]; exact h i hi

/-- A mask of the top nibble sees the category. -/
theorem and_F000 (w : Word) : w &&& 0xF000#16 = catOf w ++ 0#12 := by
  apply and_eq_of_bits
  intro i hi
  have e : (catOf w ++ 0#12).getLsbD i = if i < 12 then false else (catOf w).getLsbD (i - 12) := by
    rw [BitVec.getLsbD_append]; simp
  refine Eq.trans ?_ e.symm
  simp only [catOf, BitVec.getLsbD_extractLsb']
  interval_cases i <;> simp

/-- A mask of the top and the bottom nibble sees the category and `N`. -/
theorem and_F00F (w : Word) : w &&& 0xF00F#16 = catOf w ++ (0#8 ++ nOf w) := by
  apply and_eq_of_bits
  intro i hi
  have e : (catOf w ++ (0#8 ++ nOf w)).getLsbD i
      = if i < 12 then (if i < 4 then (nOf w).getLsbD i else false) else (catOf w).getLsbD (i - 12) := by
    rw [BitVec.getLsbD_append, BitVec.getLsbD_append]; simp
  refine Eq.trans ?_ e.symm
  simp only [catOf, nOf, BitVec.getLsbD_extractLsb']
  interval_cases i <;> simp

/-- A mask of the top nibble and the low byte sees the category and `KK`. -/
theorem and_F0FF (w : Word) : w &&& 0xF0FF#16 = catOf w ++ (0#4 ++ kkOf w) := by
  apply and_eq_of_bits
  intro i hi
  have e : (catOf w ++ (0#4 ++ kkOf w)).getLsbD i
      = if i < 12 then (if i < 8 then (kkOf w).getLsbD i else false) else (catOf w).getLsbD (i - 12) := by
    rw [BitVec.getLsbD_append, BitVec.getLsbD_append]; simp
  refine Eq.trans ?_ e.symm
  simp only [catOf, kkOf, BitVec.getLsbD_extractLsb']
  interval_cases i <;> simp

end Sys2Proof

namespace Sys2Proof.Laws.EncodeRow

/-- An instruction of a defined row is written as a word that selects that row. -/
def Statement (i : Instr) : Prop :=
  ∀ row ∈ opcodeMap, row.mnemonic = i.mnemonic → row.selects (encode i)

/-- The one row with the instruction's mnemonic decides. -/
theorem of_row {i : Instr} (row : OpcodeRow) (hm : i.mnemonic = row.mnemonic) (hs : row.selects (encode i))
    (hu : ∀ r ∈ opcodeMap, r.mnemonic = row.mnemonic → r = row) : Statement i :=
  fun r hr h => (hu r hr (h.trans hm)).symm ▸ hs

theorem clearDisplay (ignored : BitVec 8) : Statement (.clearDisplay ignored) :=
  of_row ⟨"clear-display", 0x0000, 0xF00F⟩ rfl
    (by show _ &&& 0xF00F#16 = _; rw [and_F00F]; simp only [encode, catOf_packZ, nOf_packZ]; decide) (by decide)

theorem ret (ignored : BitVec 8) : Statement (.ret ignored) :=
  of_row ⟨"return", 0x000E, 0xF00F⟩ rfl
    (by show _ &&& 0xF00F#16 = _; rw [and_F00F]; simp only [encode, catOf_packZ, nOf_packZ]; decide) (by decide)

theorem jump (nnn : BitVec 12) : Statement (.jump nnn) :=
  of_row ⟨"jump", 0x1000, 0xF000⟩ rfl
    (by show _ &&& 0xF000#16 = _; rw [and_F000]; simp only [encode, catOf_packA]; decide) (by decide)

theorem call (nnn : BitVec 12) : Statement (.call nnn) :=
  of_row ⟨"call", 0x2000, 0xF000⟩ rfl
    (by show _ &&& 0xF000#16 = _; rw [and_F000]; simp only [encode, catOf_packA]; decide) (by decide)

theorem skipEqImm (x : RegNum) (kk : Byte) : Statement (.skipEqImm x kk) :=
  of_row ⟨"skip-eq-imm", 0x3000, 0xF000⟩ rfl
    (by show _ &&& 0xF000#16 = _; rw [and_F000]; simp only [encode, catOf_packI]; decide) (by decide)

theorem skipNeImm (x : RegNum) (kk : Byte) : Statement (.skipNeImm x kk) :=
  of_row ⟨"skip-ne-imm", 0x4000, 0xF000⟩ rfl
    (by show _ &&& 0xF000#16 = _; rw [and_F000]; simp only [encode, catOf_packI]; decide) (by decide)

theorem skipEqReg (x y : RegNum) (ignored : BitVec 4) : Statement (.skipEqReg x y ignored) :=
  of_row ⟨"skip-eq-reg", 0x5000, 0xF000⟩ rfl
    (by show _ &&& 0xF000#16 = _; rw [and_F000]; simp only [encode, catOf_packR]; decide) (by decide)

theorem loadImm (x : RegNum) (kk : Byte) : Statement (.loadImm x kk) :=
  of_row ⟨"load-imm", 0x6000, 0xF000⟩ rfl
    (by show _ &&& 0xF000#16 = _; rw [and_F000]; simp only [encode, catOf_packI]; decide) (by decide)

theorem addImm (x : RegNum) (kk : Byte) : Statement (.addImm x kk) :=
  of_row ⟨"add-imm", 0x7000, 0xF000⟩ rfl
    (by show _ &&& 0xF000#16 = _; rw [and_F000]; simp only [encode, catOf_packI]; decide) (by decide)

theorem copy (x y : RegNum) : Statement (.copy x y) :=
  of_row ⟨"copy", 0x8000, 0xF00F⟩ rfl
    (by show _ &&& 0xF00F#16 = _; rw [and_F00F]; simp only [encode, catOf_packR, nOf_packR]; decide) (by decide)

theorem orReg (x y : RegNum) : Statement (.orReg x y) :=
  of_row ⟨"or", 0x8001, 0xF00F⟩ rfl
    (by show _ &&& 0xF00F#16 = _; rw [and_F00F]; simp only [encode, catOf_packR, nOf_packR]; decide) (by decide)

theorem andReg (x y : RegNum) : Statement (.andReg x y) :=
  of_row ⟨"and", 0x8002, 0xF00F⟩ rfl
    (by show _ &&& 0xF00F#16 = _; rw [and_F00F]; simp only [encode, catOf_packR, nOf_packR]; decide) (by decide)

theorem xorReg (x y : RegNum) : Statement (.xorReg x y) :=
  of_row ⟨"xor", 0x8003, 0xF00F⟩ rfl
    (by show _ &&& 0xF00F#16 = _; rw [and_F00F]; simp only [encode, catOf_packR, nOf_packR]; decide) (by decide)

theorem addReg (x y : RegNum) : Statement (.addReg x y) :=
  of_row ⟨"add-reg", 0x8004, 0xF00F⟩ rfl
    (by show _ &&& 0xF00F#16 = _; rw [and_F00F]; simp only [encode, catOf_packR, nOf_packR]; decide) (by decide)

theorem subReg (x y : RegNum) : Statement (.subReg x y) :=
  of_row ⟨"sub-reg", 0x8005, 0xF00F⟩ rfl
    (by show _ &&& 0xF00F#16 = _; rw [and_F00F]; simp only [encode, catOf_packR, nOf_packR]; decide) (by decide)

theorem shiftRight (x y : RegNum) : Statement (.shiftRight x y) :=
  of_row ⟨"shift-right", 0x8006, 0xF00F⟩ rfl
    (by show _ &&& 0xF00F#16 = _; rw [and_F00F]; simp only [encode, catOf_packR, nOf_packR]; decide) (by decide)

theorem subRegRev (x y : RegNum) : Statement (.subRegRev x y) :=
  of_row ⟨"sub-reg-rev", 0x8007, 0xF00F⟩ rfl
    (by show _ &&& 0xF00F#16 = _; rw [and_F00F]; simp only [encode, catOf_packR, nOf_packR]; decide) (by decide)

theorem shiftLeft (x y : RegNum) : Statement (.shiftLeft x y) :=
  of_row ⟨"shift-left", 0x800E, 0xF00F⟩ rfl
    (by show _ &&& 0xF00F#16 = _; rw [and_F00F]; simp only [encode, catOf_packR, nOf_packR]; decide) (by decide)

theorem skipNeReg (x y : RegNum) (ignored : BitVec 4) : Statement (.skipNeReg x y ignored) :=
  of_row ⟨"skip-ne-reg", 0x9000, 0xF000⟩ rfl
    (by show _ &&& 0xF000#16 = _; rw [and_F000]; simp only [encode, catOf_packR]; decide) (by decide)

theorem setIndex (nnn : BitVec 12) : Statement (.setIndex nnn) :=
  of_row ⟨"set-index", 0xA000, 0xF000⟩ rfl
    (by show _ &&& 0xF000#16 = _; rw [and_F000]; simp only [encode, catOf_packA]; decide) (by decide)

theorem jumpOffset (nnn : BitVec 12) : Statement (.jumpOffset nnn) :=
  of_row ⟨"jump-offset", 0xB000, 0xF000⟩ rfl
    (by show _ &&& 0xF000#16 = _; rw [and_F000]; simp only [encode, catOf_packA]; decide) (by decide)

theorem randomAnd (x : RegNum) (kk : Byte) : Statement (.randomAnd x kk) :=
  of_row ⟨"random-and", 0xC000, 0xF000⟩ rfl
    (by show _ &&& 0xF000#16 = _; rw [and_F000]; simp only [encode, catOf_packI]; decide) (by decide)

theorem draw (x y : RegNum) (n : BitVec 4) : Statement (.draw x y n) :=
  of_row ⟨"draw", 0xD000, 0xF000⟩ rfl
    (by show _ &&& 0xF000#16 = _; rw [and_F000]; simp only [encode, catOf_packR]; decide) (by decide)

theorem skipIfKey (x : RegNum) : Statement (.skipIfKey x) :=
  of_row ⟨"skip-if-key", 0xE09E, 0xF0FF⟩ rfl
    (by show _ &&& 0xF0FF#16 = _; rw [and_F0FF]; simp only [encode, catOf_packI, kkOf_packI]; decide) (by decide)

theorem skipIfNotKey (x : RegNum) : Statement (.skipIfNotKey x) :=
  of_row ⟨"skip-if-not-key", 0xE0A1, 0xF0FF⟩ rfl
    (by show _ &&& 0xF0FF#16 = _; rw [and_F0FF]; simp only [encode, catOf_packI, kkOf_packI]; decide) (by decide)

theorem getDelay (x : RegNum) : Statement (.getDelay x) :=
  of_row ⟨"get-delay", 0xF007, 0xF0FF⟩ rfl
    (by show _ &&& 0xF0FF#16 = _; rw [and_F0FF]; simp only [encode, catOf_packI, kkOf_packI]; decide) (by decide)

theorem waitKey (x : RegNum) : Statement (.waitKey x) :=
  of_row ⟨"wait-key", 0xF00A, 0xF0FF⟩ rfl
    (by show _ &&& 0xF0FF#16 = _; rw [and_F0FF]; simp only [encode, catOf_packI, kkOf_packI]; decide) (by decide)

theorem setDelay (x : RegNum) : Statement (.setDelay x) :=
  of_row ⟨"set-delay", 0xF015, 0xF0FF⟩ rfl
    (by show _ &&& 0xF0FF#16 = _; rw [and_F0FF]; simp only [encode, catOf_packI, kkOf_packI]; decide) (by decide)

theorem setSound (x : RegNum) : Statement (.setSound x) :=
  of_row ⟨"set-sound", 0xF018, 0xF0FF⟩ rfl
    (by show _ &&& 0xF0FF#16 = _; rw [and_F0FF]; simp only [encode, catOf_packI, kkOf_packI]; decide) (by decide)

theorem addIndex (x : RegNum) : Statement (.addIndex x) :=
  of_row ⟨"add-index", 0xF01E, 0xF0FF⟩ rfl
    (by show _ &&& 0xF0FF#16 = _; rw [and_F0FF]; simp only [encode, catOf_packI, kkOf_packI]; decide) (by decide)

theorem fontChar (x : RegNum) : Statement (.fontChar x) :=
  of_row ⟨"font-char", 0xF029, 0xF0FF⟩ rfl
    (by show _ &&& 0xF0FF#16 = _; rw [and_F0FF]; simp only [encode, catOf_packI, kkOf_packI]; decide) (by decide)

theorem storeBcd (x : RegNum) : Statement (.storeBcd x) :=
  of_row ⟨"store-bcd", 0xF033, 0xF0FF⟩ rfl
    (by show _ &&& 0xF0FF#16 = _; rw [and_F0FF]; simp only [encode, catOf_packI, kkOf_packI]; decide) (by decide)

theorem storeRegs (x : RegNum) : Statement (.storeRegs x) :=
  of_row ⟨"store-regs", 0xF055, 0xF0FF⟩ rfl
    (by show _ &&& 0xF0FF#16 = _; rw [and_F0FF]; simp only [encode, catOf_packI, kkOf_packI]; decide) (by decide)

theorem loadRegs (x : RegNum) : Statement (.loadRegs x) :=
  of_row ⟨"load-regs", 0xF065, 0xF0FF⟩ rfl
    (by show _ &&& 0xF0FF#16 = _; rw [and_F0FF]; simp only [encode, catOf_packI, kkOf_packI]; decide) (by decide)

/-- No row carries the mnemonic of the no-op: row 35 of R76 is every word that selects none. -/
theorem undefinedNop (w : Word) : Statement (.undefinedNop w) := fun r hr hm =>
  absurd hm ((by decide : ∀ r ∈ opcodeMap, r.mnemonic ≠ "undefined-nop") r hr)

end Sys2Proof.Laws.EncodeRow
end

