-- ==== Sys2Proof/Tests/Slice0.lean ====
section
/-! SUPPORT. Tests: ill-formed terms that are refused, the decoding of words written out bit by bit from the encodings of
30_encoding.md R74 and R76, single steps with the results 95_test_vectors.md gives (the vector's name in each comment), reset and load,
and for each statement with hypotheses a state and operands that meet them. -/

namespace Sys2Proof.Tests

set_option Elab.async false

open Sys2Proof Sys2Proof.Machine

/-! ## Well-formedness: each check refuses something (R78) -/

/-- Category 0: the words of clear-display and return are not undefined. -/
theorem test_wf_refuses_category0 : Instr.wf (.undefinedNop 0x00E0) = false ∧ Instr.wf (.undefinedNop 0x0000) = false ∧
    Instr.wf (.undefinedNop 0x0FFE) = false ∧ Instr.wf (.undefinedNop 0x0001) = true := by decide

/-- Category 8: sub-opcodes 0 to 7 and E are not undefined. -/
theorem test_wf_refuses_category8 : Instr.wf (.undefinedNop 0x8120) = false ∧ Instr.wf (.undefinedNop 0x8127) = false ∧
    Instr.wf (.undefinedNop 0x812E) = false ∧ Instr.wf (.undefinedNop 0x8128) = true ∧ Instr.wf (.undefinedNop 0x812F) = true := by
  decide

/-- Category E: 9E and A1 are not undefined. -/
theorem test_wf_refuses_categoryE : Instr.wf (.undefinedNop 0xE19E) = false ∧ Instr.wf (.undefinedNop 0xE1A1) = false ∧
    Instr.wf (.undefinedNop 0xE19F) = true := by decide

/-- Category F: the nine low bytes of the map are not undefined. -/
theorem test_wf_refuses_categoryF : Instr.wf (.undefinedNop 0xF107) = false ∧ Instr.wf (.undefinedNop 0xF165) = false ∧
    Instr.wf (.undefinedNop 0xF155) = false ∧ Instr.wf (.undefinedNop 0xF175) = true := by decide

/-- The other twelve categories hold no undefined word. -/
theorem test_wf_refuses_other_categories : Instr.wf (.undefinedNop 0x1000) = false ∧ Instr.wf (.undefinedNop 0x5121) = false ∧
    Instr.wf (.undefinedNop 0x9FFF) = false ∧ Instr.wf (.undefinedNop 0xD000) = false := by decide

/-! ## Decoding: every constructor, from its row of R76 (fields: CAT, then X, Y, N or KK or NNN) -/

theorem test_decode_display : decode 0b0000000011100000 = .clearDisplay 0b00001110 ∧
    decode 0b1101000100100101 = .draw 1 2 5 := by decide

theorem test_decode_control_flow : decode 0b0000000011101110 = .ret 0b00001110 ∧ decode 0b0001101010111100 = .jump 0xABC ∧
    decode 0b0010001100000000 = .call 0x300 ∧ decode 0b0011101000111100 = .skipEqImm 0xA 0x3C ∧
    decode 0b0100101000111100 = .skipNeImm 0xA 0x3C ∧ decode 0b0101000100100000 = .skipEqReg 1 2 0 ∧
    decode 0b1001000100100000 = .skipNeReg 1 2 0 ∧ decode 0b1011001100000000 = .jumpOffset 0x300 := by decide

theorem test_decode_arith_logic : decode 0b0110101000111100 = .loadImm 0xA 0x3C ∧ decode 0b0111101000000100 = .addImm 0xA 0x04 ∧
    decode 0b1000000100100000 = .copy 1 2 ∧ decode 0b1000000100100001 = .orReg 1 2 ∧ decode 0b1000000100100010 = .andReg 1 2 ∧
    decode 0b1000000100100011 = .xorReg 1 2 ∧ decode 0b1000000100100100 = .addReg 1 2 ∧ decode 0b1000000100100101 = .subReg 1 2 ∧
    decode 0b1000000100100110 = .shiftRight 1 2 ∧ decode 0b1000000100100111 = .subRegRev 1 2 ∧
    decode 0b1000000100101110 = .shiftLeft 1 2 ∧ decode 0b1100000100001111 = .randomAnd 1 0x0F := by decide

theorem test_decode_index_memory : decode 0b1010000100100011 = .setIndex 0x123 ∧ decode 0b1111001000011110 = .addIndex 2 ∧
    decode 0b1111010000101001 = .fontChar 4 ∧ decode 0b1111000000110011 = .storeBcd 0 ∧ decode 0b1111001001010101 = .storeRegs 2 ∧
    decode 0b1111001001100101 = .loadRegs 2 := by decide

theorem test_decode_timer_input : decode 0b1110000110011110 = .skipIfKey 1 ∧ decode 0b1110000110100001 = .skipIfNotKey 1 ∧
    decode 0b1111001000000111 = .getDelay 2 ∧ decode 0b1111000100001010 = .waitKey 1 ∧ decode 0b1111000000010101 = .setDelay 0 ∧
    decode 0b1111000000011000 = .setSound 0 := by decide

theorem test_decode_undefined : decode 0x0123 = .undefinedNop 0x0123 ∧ decode 0x8128 = .undefinedNop 0x8128 ∧
    decode 0xE19F = .undefinedNop 0xE19F ∧ decode 0xF1FF = .undefinedNop 0xF1FF := by decide

/-- Ignored bits (R77): they select the same operation. -/
theorem test_decode_ignored_bits : decode 0x0120 = .clearDisplay 0x12 ∧ decode 0x012E = .ret 0x12 ∧
    decode 0x512F = .skipEqReg 1 2 0xF ∧ decode 0x9127 = .skipNeReg 1 2 7 := by decide

/-- Bytes: high byte first (R52); a lone byte holds no instruction (R73). -/
theorem test_decode_bytes : decodeBytes [0x12, 0x0A, 0x77] = .ok (.jump 0x20A, [0x77]) ∧ decodeBytes [0x12] = .error .truncated ∧
    decodeBytes [] = .error .truncated := ⟨rfl, rfl, rfl⟩

theorem test_decode_table_word : decodeTableWord 16 0x6A3C = some (.loadImm 0xA 0x3C) ∧
    decodeTableWord 16 0x8128 = some (.undefinedNop 0x8128) := by decide

/-! ## Single steps -/

/-- The reset state with some registers set. -/
def regs (l : List (RegNum × Byte)) : State := l.foldl (fun s p => s.setReg p.1 p.2) State.reset

/-- The state that a step leaves which executes the word `w`. -/
def after (w : Nat) (s : State) : State :=
  match step (s.withFetchWord 16 w) with
  | .next t => t
  | .fault _ => s
  | .refused _ => s

/-- Some bytes stored from an address up. -/
def bytesAt (a : Nat) (l : List Byte) (s : State) : State := s.setMem (s.mem.writeBytes a l)

/-- Whether the cell at column `c`, row `r` is on. -/
def on (s : State) (c : Fin 64) (r : Fin 32) : Bool := s.fb[r][c]

/-- Keys held down, as SetKeys takes them. -/
def keys (k : BitVec 16) (s : State) : State := setKeys k s

/-- T-D2: the zero word is clear-display. -/
theorem test_clearDisplay : let s := after 0x0000 { State.reset with fb := Vector.replicate 32 (Vector.replicate 64 true) }
    on s 0 0 = false ∧ on s 63 31 = false ∧ s.pc = 0x202 := by decide +kernel

/-- T-D8: one cell collides and goes off, the other goes on. -/
theorem test_draw_collision : let s0 := bytesAt 0x300 [0xC0] ((regs []).setIndex 0x300)
    let s := after 0xD011 { s0 with fb := s0.fb.set 0 (s0.fb[0].set 1 true) }
    on s 0 0 = true ∧ on s 1 0 = false ∧ s.x[15] = 1 := by decide +kernel

/-- T-D11: the range check covers the clipped row too; nothing is drawn. -/
theorem test_draw_out_of_range : let s := after 0xD012 (bytesAt 0xFFF [0x80] ((regs [(1, 0x1F)]).setIndex 0xFFF))
    s.faultReason = .memoryAddressOutOfRange ∧ s.pc = 0x200 ∧ on s 0 31 = false := by decide +kernel

/-- T-C1. -/
theorem test_return : let s := after 0x00EE { State.reset with sp := 1, stack := State.reset.stack.set 0 0x204 }
    s.pc = 0x204 ∧ s.sp = 0 ∧ s.stack[0] = 0x204 := by decide +kernel

/-- T-C2. -/
theorem test_return_underflow : let s := after 0x00EE State.reset
    s.runState = .faulted ∧ s.faultReason.code = 3 ∧ s.pc = 0x200 := by decide +kernel

/-- T-C6: an odd target is accepted. -/
theorem test_jump : (after 0x1201 State.reset).pc = 0x201 := by decide +kernel

/-- T-C7: the advanced program counter is pushed. -/
theorem test_call : let s := after 0x2300 (State.reset.setPc 0x202)
    s.pc = 0x300 ∧ s.sp = 1 ∧ s.stack[0] = 0x204 := by decide +kernel

/-- T-C9. -/
theorem test_call_overflow : let s := after 0x2300 { State.reset with sp := 16 }
    s.runState = .faulted ∧ s.faultReason.code = 2 ∧ s.pc = 0x200 := by decide +kernel

/-- T-C11, T-C12. -/
theorem test_skipEqImm : (after 0x3A3C (regs [(10, 0x3C)])).pc = 0x204 ∧ (after 0x3A3C (regs [(10, 0x3D)])).pc = 0x202 := by
  decide +kernel

/-- T-C13, T-C14. -/
theorem test_skipNeImm : (after 0x4A3C (regs [(10, 0x3C)])).pc = 0x202 ∧ (after 0x4A3C (regs [(10, 0x3D)])).pc = 0x204 := by
  decide +kernel

/-- T-C16, T-C17. -/
theorem test_skipEqReg : (after 0x512F (regs [(1, 7), (2, 7)])).pc = 0x204 ∧ (after 0x5120 (regs [(1, 7), (2, 8)])).pc = 0x202 := by
  decide +kernel

/-- T-C21, T-C20. -/
theorem test_skipNeReg : (after 0x9127 (regs [(1, 7), (2, 8)])).pc = 0x204 ∧ (after 0x9120 (regs [(1, 7), (2, 7)])).pc = 0x202 := by
  decide +kernel

/-- T-C23: the sum is not reduced to 12 bits. -/
theorem test_jumpOffset : (after 0xBFFF (regs [(0, 0xFF)])).pc = 0x10FE := by decide +kernel

/-- T-A1. -/
theorem test_loadImm : (after 0x6A3C State.reset).x[10] = 0x3C := by decide +kernel

/-- T-A3: it wraps and writes no flag. -/
theorem test_addImm : let s := after 0x7AFF (regs [(10, 2), (15, 0x55)])
    s.x[10] = 1 ∧ s.x[15] = 0x55 := by decide +kernel

/-- T-A5. -/
theorem test_copy : let s := after 0x8120 (regs [(1, 0x11), (2, 0x22)])
    s.x[1] = 0x22 ∧ s.x[2] = 0x22 := by decide +kernel

/-- T-A6. -/
theorem test_or : let s := after 0x8121 (regs [(1, 0xF0), (2, 0x3C), (15, 0x77)])
    s.x[1] = 0xFC ∧ s.x[15] = 0x77 := by decide +kernel

/-- T-A7. -/
theorem test_and : (after 0x8122 (regs [(1, 0xF0), (2, 0x3C)])).x[1] = 0x30 := by decide +kernel

/-- T-A8. -/
theorem test_xor : (after 0x8123 (regs [(1, 0xF0), (2, 0x3C)])).x[1] = 0xCC := by decide +kernel

/-- T-A11, T-A12: the carry begins at 256. -/
theorem test_addReg : (after 0x8124 (regs [(1, 0xC8), (2, 0x37), (15, 1)])).x[15] = 0 ∧
    (after 0x8124 (regs [(1, 0xC8), (2, 0x38)])).x[15] = 1 := by decide +kernel

/-- T-A14: with X = 15 the flag remains. -/
theorem test_addReg_flag_register : (after 0x8F14 (regs [(15, 0xFF), (1, 1)])).x[15] = 1 := by decide +kernel

/-- T-A18, T-A19: the comparison is strict. -/
theorem test_subReg : (after 0x8125 (regs [(1, 3), (2, 5)])).x[1] = 0xFE ∧ (after 0x8125 (regs [(1, 5), (2, 5), (15, 1)])).x[15] = 0 := by
  decide +kernel

/-- T-A21. -/
theorem test_subRegRev : let s := after 0x8127 (regs [(1, 3), (2, 5)])
    s.x[1] = 2 ∧ s.x[15] = 1 := by decide +kernel

/-- T-A24: Vy is not used. -/
theorem test_shiftRight : let s := after 0x8126 (regs [(1, 5), (2, 0xFF)])
    s.x[1] = 2 ∧ s.x[15] = 1 := by decide +kernel

/-- T-A27, T-A30. -/
theorem test_shiftLeft : (after 0x812E (regs [(1, 0x81)])).x[1] = 2 ∧ (after 0x8F0E (regs [(15, 0x41)])).x[15] = 0 := by
  decide +kernel

/-- T-A31. -/
theorem test_randomAnd : (after 0xC10F (supplyRnd 0xA7 State.reset)).x[1] = 7 := by decide +kernel

/-- T-M2. -/
theorem test_setIndex : (after 0xAFFF State.reset).index = 0xFFF := by decide +kernel

/-- T-M4, T-M5: no 12-bit mask, then the 16-bit wrap. -/
theorem test_addIndex : (after 0xF21E ((regs [(2, 1)]).setIndex 0xFFF)).index = 0x1000 ∧
    (after 0xF21E ((regs [(2, 2)]).setIndex 0xFFFF)).index = 1 := by decide +kernel

/-- T-M7: not masked to a nibble. -/
theorem test_fontChar : (after 0xF429 (regs [(4, 0x1A)])).index = 0xD2 := by decide +kernel

/-- T-M9: 205 decimal. -/
theorem test_storeBcd : let s := after 0xF033 ((regs [(0, 0xCD)]).setIndex 0x300)
    s.mem.read 0x300 = 2 ∧ s.mem.read 0x301 = 0 ∧ s.mem.read 0x302 = 5 := by decide +kernel

/-- T-M11: not even the bytes in range are stored. -/
theorem test_storeBcd_out_of_range : let s := after 0xF033 ((regs [(0, 0xFF)]).setIndex 0xFFE)
    s.faultReason.code = 4 ∧ s.mem.read 0xFFE = 0 := by decide +kernel

/-- T-M13. -/
theorem test_storeRegs : let s := after 0xF255 ((regs [(0, 0x11), (1, 0x22), (2, 0x33), (3, 0x44)]).setIndex 0x300)
    s.mem.read 0x300 = 0x11 ∧ s.mem.read 0x302 = 0x33 ∧ s.mem.read 0x303 = 0 ∧ s.index = 0x300 := by decide +kernel

/-- T-M20: an instruction may overwrite itself; `ir` still holds it. -/
theorem test_storeRegs_over_itself : let s := after 0xF155 ((regs [(0, 0x12)]).setIndex 0x200)
    s.mem.read 0x200 = 0x12 ∧ s.mem.read 0x201 = 0 ∧ s.ir = 0xF155 := by decide +kernel

/-- T-M16. -/
theorem test_loadRegs : let s := after 0xF265 (bytesAt 0x300 [1, 2, 3, 4] ((regs [(3, 0x99)]).setIndex 0x300))
    s.x[0] = 1 ∧ s.x[2] = 3 ∧ s.x[3] = 0x99 ∧ s.index = 0x300 := by decide +kernel

/-- T-M17: the glyph table is ordinary memory. -/
theorem test_loadRegs_glyphs : let s := after 0xFF65 ((regs []).setIndex 0x50)
    s.x[0] = 0xF0 ∧ s.x[5] = 0x20 ∧ s.x[11] = 0x10 ∧ s.x[15] = 0xF0 := by decide +kernel

/-- T-K1, T-K2. -/
theorem test_skipIfKey : (after 0xE19E (keys 0x0080 (regs [(1, 7)]))).pc = 0x204 ∧ (after 0xE19E (regs [(1, 7)])).pc = 0x202 := by
  decide +kernel

/-- T-K4: the register is not reduced to a nibble. -/
theorem test_skipIfKey_out_of_range : (after 0xE19E (keys 0x0001 (regs [(1, 0x10)]))).faultReason.code = 5 := by decide +kernel

/-- T-K6, T-K7. -/
theorem test_skipIfNotKey : (after 0xE1A1 (regs [(1, 7)])).pc = 0x204 ∧ (after 0xE1A1 (keys 0x0080 (regs [(1, 7)]))).pc = 0x202 := by
  decide +kernel

/-- T-K9: the read is before the tick. -/
theorem test_getDelay : let s := after 0xF207 (State.reset.setDt 5)
    s.x[2] = 5 ∧ s.dt = 4 := by decide +kernel

/-- T-K13: the lowest key; T-K16: key E is scanned. -/
theorem test_waitKey : (after 0xF10A (keys 0x0088 State.reset)).x[1] = 3 ∧ (after 0xF10A (keys 0x4000 State.reset)).x[1] = 0xE := by
  decide +kernel

/-- The state that a step at a value of `WAITKEY_LAST` leaves which executes the word `w`. -/
def afterWith (last : KeyNum) (w : Nat) (s : State) : State :=
  match stepWith last (s.withFetchWord 16 w) with
  | .next t => t
  | .fault _ => s
  | .refused _ => s

/-- T-K14: key F is not scanned, the instruction waits; T-K15 (and program P4's other step 6): with the parameter at 0xF it completes. -/
theorem test_waitKey_waits : (after 0xF10A (keys 0x8000 State.reset)).pc = 0x200 ∧
    (let s := afterWith 0xF 0xF10A (keys 0x8000 State.reset)
     s.x[1] = 0xF ∧ s.pc = 0x202) := by decide +kernel

/-- T-K21: set to 1 and ticked to 0 in the same step. -/
theorem test_setDelay : (after 0xF015 (regs [(0, 1)])).dt = 0 ∧ (after 0xF015 (regs [(0, 5)])).dt = 4 := by decide +kernel

/-- T-K25: both timers tick. -/
theorem test_setSound : let s := after 0xF018 ((regs [(0, 3)]).setDt 7)
    s.st = 2 ∧ s.dt = 6 := by decide +kernel

/-- T-U1. -/
theorem test_undefinedNop : let s := after 0x8128 ((regs [(1, 1), (2, 2)]).setDt 3)
    s.pc = 0x202 ∧ s.dt = 2 ∧ s.x[1] = 1 ∧ s.ir = 0x8128 := by decide +kernel

/-- E8: `pc` = 4095 faults, and nothing else changes. -/
theorem test_bad_pc : step (State.reset.setPc 0xFFF) =
    .next { State.reset with pc := 0xFFF, runState := .faulted, faultReason := .invalidProgramCounter } := by rfl

/-! ## Reset, load and the host (T-R1 to T-R7) -/

theorem test_reset_memory : State.reset.mem.wf = true ∧ State.reset.mem.read 0x50 = 0xF0 ∧ State.reset.mem.read 0x9F = 0x80 ∧
    State.reset.mem.read 0x4F = 0 ∧ State.reset.mem.read 0xA0 = 0 ∧ State.reset.mem.read 0x200 = 0 := by decide +kernel

/-- Reset with the default parameters, written byte by byte, is the reset state. -/
theorem test_reset_parameters : resetWith Config.glyphs Config.loadBase = State.reset := by rfl

/-- A load writes high and low; an image that does not fit is refused (at a base near the end, to keep the test small). -/
theorem test_load : ((load [0x60, 0x01, 0x12] State.reset).toOption.map fun s => s.mem.read 0x202) = some 0x12 ∧
    (loadAt 0xFFE [1, 2] State.reset).toOption.isSome = true ∧ (loadAt 0xFFE [1, 2, 3] State.reset).toOption.isSome = false := by
  decide +kernel

/-- T-R7: FAULTED, the keys can still be set, and a step changes nothing. -/
theorem test_faulted_stays : let s := setKeys 0xFFFF (after 0x00EE State.reset)
    step s = .next s ∧ s.key[15] = true ∧ stepResult s = .faulted .stackUnderflow := ⟨rfl, rfl, rfl⟩

/-- The host can set the machine up at any instruction, in FAULTED too. -/
theorem test_withFetchWord_from_faulted : let s := (after 0x00EE State.reset).withFetchWord 16 0x6A3C
    s.runState = .running ∧ s.fetchWord = 0x6A3C := by decide +kernel

/-! ## Witnesses: for each statement with hypotheses, a state and operands that meet them, clause by clause -/

/-- The reset state standing at the instruction `w`. -/
def standing (w : Nat) (s : State) : State := s.withFetchWord 16 w

/-- A state in FAULTED. -/
def faulted : State := State.reset.raise .stackUnderflow

/-- A state that holds `n` return addresses, all 0x204. -/
def deep (n : Fin 17) : State := { State.reset with sp := n, stack := Vector.replicate 16 0x204 }

theorem test_witness_DecodeInvertsEncode : Instr.wf (.undefinedNop 0xFFFF) = true ∧ Instr.wf (.draw 15 15 15) = true := by decide

theorem test_witness_DecodeFollowsOpcodeMap : opcodeMap.length = 34 ∧ ∃ row ∈ opcodeMap, row.selects 0x00E0 :=
  ⟨rfl, ⟨"clear-display", 0x0000, 0xF00F⟩, .head _, rfl⟩

theorem test_witness_NoOpWordsAreThoseListed : decode 0x0FFF = .undefinedNop 0x0FFF ∧ undefinedWord 0x0FFF = true := by decide

theorem test_witness_MemoriesReadingAlikeAreEqual : ∃ m m' : Memory, m ≠ [] ∧ m.wf = true ∧ m'.wf = true ∧
    ∀ a, a ≤ 0xFFF → m.read a = m'.read a := ⟨[(0xFFF, 1)], [(0xFFF, 1)], by decide, by decide +kernel, by decide +kernel, fun _ _ => rfl⟩

theorem test_witness_StoredWordIsFetchedNext : let s := standing 0xF155 (State.reset.setIndex 0x202)
    s.mem.wf = true ∧ AboutToExecute s (.storeRegs 1) ∧ 1 ≤ (1 : RegNum).val ∧ s.index.toNat = s.pc.toNat + 2 ∧
      s.index.toNat + (1 : RegNum).val ≤ 0xFFF :=
  ⟨by decide +kernel, ⟨rfl, by decide +kernel, by decide +kernel, by decide +kernel⟩, by decide, by decide +kernel, by decide +kernel⟩

/-- The three clauses: FAULTED; the first bad addresses, 4095 and 4096; the last good one, 4094. -/
theorem test_witness_StepRunsTheDecodedInstruction : faulted.runState = .faulted ∧
    (State.reset.setPc 4096).runState = .running ∧ 4094 < (State.reset.setPc 4096).pc.toNat ∧ (State.reset.setPc 1).pc.toNat % 2 = 1 ∧
    (let s := standing 0x6A3C (State.reset.setPc 4094)
     s.runState = .running ∧ s.pc.toNat ≤ 4094 ∧ s.pc.toNat % 2 = 0 ∧
      decodeBytes [s.mem.read s.pc.toNat, s.mem.read (s.pc.toNat + 1)] = .ok (.loadImm 10 0x3C, []) ∧
      Instr.wf (.loadImm 10 0x3C) = true) :=
  ⟨rfl, rfl, by decide, by decide, rfl, by decide +kernel, by decide +kernel, rfl, rfl⟩

theorem test_witness_BadProgramCounterFaults : (State.reset.setPc 4095).runState = .running ∧ 4094 < (State.reset.setPc 4095).pc.toNat ∧
    (State.reset.setPc 3).pc.toNat % 2 = 1 := ⟨rfl, by decide, by decide⟩

/-- One that must fault and one that must not. -/
theorem test_witness_FaultsAreExactlyThoseDue : (AboutToExecute (standing 0x2300 (deep 16)) (.call 0x300) ∧
    faultDue (.call 0x300) (standing 0x2300 (deep 16)) = .stackOverflow) ∧
    AboutToExecute (standing 0x2300 (deep 15)) (.call 0x300) ∧ faultDue (.call 0x300) (standing 0x2300 (deep 15)) = .noFault :=
  ⟨⟨⟨rfl, by decide +kernel, by decide +kernel, by decide +kernel⟩, rfl⟩, ⟨rfl, by decide +kernel, by decide +kernel, by decide +kernel⟩, rfl⟩

theorem test_witness_FaultsArePrecise : ∃ s t : State, s.runState = .running ∧ step s = .next t ∧ t.runState = .faulted :=
  ⟨standing 0x00EE State.reset, (standing 0x00EE State.reset).raise .stackUnderflow, rfl, rfl, rfl⟩

theorem test_witness_FaultedIsTerminal : faulted.runState = .faulted := rfl

/-- A step that completes, of set-delay, and one that faults. -/
theorem test_witness_TimersTickOncePerCompletedStep :
    (∃ s t, AboutToExecute s (.setDelay 0) ∧ step s = .next t ∧ t.runState = .running) ∧
    ∃ s t, AboutToExecute s (.ret 0x0E) ∧ step s = .next t ∧ t.runState = .faulted :=
  ⟨⟨standing 0xF015 State.reset, _, ⟨rfl, by decide +kernel, by decide +kernel, by decide +kernel⟩, rfl, rfl⟩,
    standing 0x00EE State.reset, _, ⟨rfl, by decide +kernel, by decide +kernel, by decide +kernel⟩, rfl, rfl⟩

/-- No row at all; the last byte of memory; one byte past it; a covered cell that is on. -/
theorem test_witness_DrawTogglesTheCoveredCells : (0 : BitVec 4).toNat = 0 ∧
    (State.reset.setIndex 0xFFF).index.toNat + (1 : BitVec 4).toNat - 1 ≤ 0xFFF ∧
    0xFFF < (State.reset.setIndex 0xFFF).index.toNat + (2 : BitVec 4).toNat - 1 ∧
    (let s := { bytesAt 0x300 [0x80] (State.reset.setIndex 0x300) with fb := Vector.replicate 32 (Vector.replicate 64 true) }
     spriteCovers s 0 1 1 0 0 ∧ s.fb[(0 : Fin 32)][(0 : Fin 64)] = true ∧ ¬ spriteCovers s 0 1 1 0 1) := by
  refine ⟨rfl, by decide, by decide, ⟨by decide, by decide, by decide, by decide, by decide +kernel⟩, by decide +kernel, ?_⟩
  rintro ⟨_, _, _, _, h⟩
  revert h
  decide +kernel

theorem test_witness_DrawingTwiceRestoresTheDisplay : (0 : RegNum) ≠ 15 ∧ (14 : RegNum) ≠ 15 ∧
    (State.reset.setIndex 0xFF1).index.toNat + (15 : BitVec 4).toNat - 1 ≤ 0xFFF := by decide

/-- One address held, sixteen held, none held. -/
theorem test_witness_ReturnPopsTheReturnAddress : (0 : Fin 16).val + 1 = (deep 1).sp.val ∧ (15 : Fin 16).val + 1 = (deep 16).sp.val ∧
    (deep 0).sp.val = 0 := ⟨rfl, rfl, rfl⟩

/-- None held, fifteen held, sixteen held. -/
theorem test_witness_CallPushesTheAdvancedProgramCounter : (0 : Fin 16).val = (deep 0).sp.val ∧ (15 : Fin 16).val = (deep 15).sp.val ∧
    (deep 16).sp.val = 16 := ⟨rfl, rfl, rfl⟩

theorem test_witness_ReturnUndoesCall : (deep 0).sp.val < 16 ∧ (deep 15).sp.val < 16 := by decide

/-- Both sides of each flag: sums 255 and 256; greater and equal. -/
theorem test_witness_AddAndSubtractWithFlag : ¬ 255 < (0xC8 : Byte).toNat + (0x37 : Byte).toNat ∧
    255 < (0xC8 : Byte).toNat + (0x38 : Byte).toNat ∧ (3 : Byte).toNat < (5 : Byte).toNat ∧ ¬ (5 : Byte).toNat < (5 : Byte).toNat := by
  decide

theorem test_witness_ShiftsLeaveTheBitShiftedOut : (5 : Byte).toNat % 2 = 1 ∧ ¬ (4 : Byte).toNat % 2 = 1 ∧ 128 ≤ (0x80 : Byte).toNat ∧
    ¬ 128 ≤ (0x7F : Byte).toNat := by decide

/-- `index + 2` at 0xFFF, and one above. -/
theorem test_witness_StoreBcdStoresThreeDigits : State.reset.mem.wf = true ∧ (State.reset.setIndex 0xFFD).index.toNat + 2 ≤ 0xFFF ∧
    0xFFF < (State.reset.setIndex 0xFFE).index.toNat + 2 := by decide

/-- `index + X` at 0xFFF, and one above. -/
theorem test_witness_StoreRegsStoresTheRange : State.reset.mem.wf = true ∧
    (State.reset.setIndex 0xFF0).index.toNat + (15 : RegNum).val ≤ 0xFFF ∧
    0xFFF < (State.reset.setIndex 0xFF1).index.toNat + (15 : RegNum).val ∧ (15 : RegNum) ≤ 15 := by decide

theorem test_witness_LoadRegsLoadsTheRange : (State.reset.setIndex 0xFFF).index.toNat + (0 : RegNum).val ≤ 0xFFF ∧
    0xFFF < (State.reset.setIndex 0x1000).index.toNat + (0 : RegNum).val ∧ (0 : RegNum) ≤ 0 ∧ (0 : RegNum) < 1 := by decide

theorem test_witness_LoadRegsRestoresWhatStoreRegsStored : State.reset.mem.wf = true ∧
    (State.reset.setIndex 0xFF0).index.toNat + (15 : RegNum).val ≤ 0xFFF := by decide

/-- The last key, and the first value that is no key. -/
theorem test_witness_KeySkipsTestTheLevel : (15 : KeyNum).val = ((regs [(1, 15)]).reg 1).toNat ∧ 15 < ((regs [(1, 16)]).reg 1).toNat := by
  decide +kernel

theorem test_witness_TimerMovesCopyTheByte : AboutToExecute (standing 0xF207 State.reset) (.getDelay 2) ∧
    AboutToExecute (standing 0xF215 State.reset) (.setDelay 2) ∧ AboutToExecute (standing 0xF218 State.reset) (.setSound 2) :=
  ⟨⟨rfl, by decide +kernel, by decide +kernel, by decide +kernel⟩, ⟨rfl, by decide +kernel, by decide +kernel, by decide +kernel⟩,
    rfl, by decide +kernel, by decide +kernel, by decide +kernel⟩

/-- The last key scanned is the lowest pressed; and only key 0xF is pressed. -/
theorem test_witness_WaitKeyTakesTheLowestKeyOrRewinds :
    ((0xE : KeyNum).val ≤ 0xE ∧ (keys 0xC000 State.reset).key[(0xE : KeyNum)] = true ∧
      ∀ j : KeyNum, j < 0xE → (keys 0xC000 State.reset).key[j] = false) ∧
    ∀ k : KeyNum, k.val ≤ 0xE → (keys 0x8000 State.reset).key[k] = false := by decide +kernel

theorem test_witness_WaitKeyPollsUntilAKeyIsPressed : AboutToExecute (standing 0xF10A State.reset) (.waitKey 1) ∧
    ∀ turn ∈ [((0x8000 : BitVec 16), (0 : Byte)), (0, 1)], turn.1.toNat % 0x8000 = 0 :=
  ⟨⟨rfl, by decide +kernel, by decide +kernel, by decide +kernel⟩,
    fun t ht => by simp only [List.mem_cons, List.not_mem_nil, or_false] at ht; rcases ht with rfl | rfl <;> rfl⟩

theorem test_witness_UndefinedWordsDoNothing : AboutToExecute (standing 0x8128 State.reset) (.undefinedNop 0x8128) :=
  ⟨rfl, by decide +kernel, by decide +kernel, by decide +kernel⟩

theorem test_witness_EachItemChangesOnlyByItsWriters : ∃ s t, AboutToExecute s (.storeBcd 0) ∧ step s = .next t ∧ t.runState = .running :=
  ⟨standing 0xF033 (State.reset.setIndex 0xFFD), _, ⟨rfl, by decide +kernel, by decide +kernel, by decide +kernel⟩, rfl, rfl⟩

theorem test_witness_RegistersChangeOnlyAsListed : ¬ mayWriteReg (.addReg 1 2) 3 ∧
    ∃ s t, AboutToExecute s (.addReg 1 2) ∧ step s = .next t ∧ t.runState = .running :=
  ⟨by unfold mayWriteReg; decide, standing 0x8124 State.reset, _, ⟨rfl, by decide +kernel, by decide +kernel, by decide +kernel⟩, rfl, rfl⟩

/-- At the last address a fetch accepts. -/
theorem test_witness_ProgramCounterAfterACompletedStep :
    ∃ s t, AboutToExecute s (.skipEqImm 0 0) ∧ s.pc = 4094 ∧ step s = .next t ∧ t.runState = .running :=
  ⟨standing 0x3000 (State.reset.setPc 4094), _, ⟨rfl, by decide +kernel, by decide +kernel, by decide +kernel⟩, rfl, rfl, rfl⟩

/-- A step that completes and one that faults. -/
theorem test_witness_IrIsWrittenAndNeverRead :
    (∃ s t : State, s.runState = .running ∧ step s = .next t ∧ t.runState = .running) ∧
    ∃ s t : State, s.runState = .running ∧ step s = .next t ∧ t.runState = .faulted :=
  ⟨⟨standing 0x6A3C State.reset, _, rfl, rfl, rfl⟩, standing 0x00EE State.reset, _, rfl, rfl, rfl⟩

/-- Other contents above the one address held. -/
theorem test_witness_StaleStackSlotsAreUnobservable : ∃ (s t : State) (other : Vector Word 16),
    (∀ j : Fin 16, j.val < s.sp.val → other[j] = s.stack[j]) ∧ other ≠ s.stack ∧ step s = .next t :=
  ⟨standing 0x00EE (deep 1), _, (deep 1).stack.set 1 0, by decide +kernel, by decide +kernel, rfl⟩

theorem test_witness_SoundTimerIsUnobservable : ∃ s t : State, step s = .next t ∧ t.runState = .running :=
  ⟨standing 0xF018 State.reset, _, rfl, rfl⟩

theorem test_witness_RandomByteReachesOnlyRandomAnd : ∃ s t : State, AboutToExecute s (.loadImm 10 0x3C) ∧
    (∀ x kk, Instr.loadImm 10 0x3C ≠ .randomAnd x kk) ∧ step s = .next t ∧ t.runState = .running :=
  ⟨standing 0x6A3C State.reset, _, ⟨rfl, by decide +kernel, by decide +kernel, by decide +kernel⟩, (fun _ _ h => by cases h), rfl, rfl⟩

/-- A call, which holds one return address more. -/
theorem test_witness_StepKeepsTheInvariant : ∃ s t, Inv s ∧ step s = .next t ∧ t.sp = 2 :=
  ⟨standing 0x2300 (deep 1), _, ⟨by decide +kernel, by decide +kernel, by decide +kernel, by decide +kernel⟩, rfl, rfl⟩

theorem test_witness_ReachableStatesMeetTheInvariant : Reachable State.reset ∧ Reachable (supplyRnd 7 (setKeys 1 State.reset)) :=
  ⟨.reset, .rnd _ _ (.keys _ _ .reset)⟩

/-- The longest image that fits, and one byte more. -/
theorem test_witness_LoadCopiesTheImageOrRefuses : State.reset.mem.wf = true ∧ (List.replicate 3584 (0xFF : Byte)).length ≤ 3584 ∧
    3584 < (List.replicate 3585 (0xFF : Byte)).length := ⟨rfl, by rw [List.length_replicate], by rw [List.length_replicate]; omega⟩

theorem test_witness_KeysChangeOnlyBySetKeys : ∃ s t : State, step s = .next t := ⟨standing 0x6A3C State.reset, _, rfl⟩

theorem test_witness_PlacedWordIsFetched : State.reset.mem.wf = true ∧ (State.reset.setPc 4094).runState = .running ∧
    (State.reset.setPc 4094).pc.toNat ≤ 4094 ∧ (State.reset.setPc 4094).pc.toNat % 2 = 0 := ⟨rfl, rfl, by decide, by decide⟩

/-- One turn from the last address, and none from past it. -/
theorem test_witness_ZeroedMemoryClearsThenFaults :
    (∃ s : State, s.runState = .running ∧ s.pc.toNat + 2 * [((3 : BitVec 16), (9 : Byte))].length = 4096 ∧
      ∀ a, s.pc.toNat ≤ a → a ≤ 0xFFF → s.mem.read a = 0) ∧
    ∃ s : State, s.runState = .running ∧ s.pc.toNat + 2 * ([] : List (BitVec 16 × Byte)).length = 4096 := by
  refine ⟨⟨State.reset.setPc 4094, rfl, rfl, fun a h1 h2 => ?_⟩, State.reset.setPc 4096, rfl, rfl⟩
  have h1 : 4094 ≤ a := h1
  obtain rfl | rfl : a = 4094 ∨ a = 4095 := by omega
  all_goals rfl

/-- The last key of all, scanned and alone; none up to the parameter pressed, though a key above it is. -/
theorem test_witness_WaitKeyScansUpToItsParameter :
    ((0xF : KeyNum) ≤ 0xF ∧ (keys 0x8000 State.reset).key[(0xF : KeyNum)] = true ∧
      ∀ j : KeyNum, j < 0xF → (keys 0x8000 State.reset).key[j] = false) ∧
    ∀ k : KeyNum, k ≤ 0 → (keys 0x0002 State.reset).key[k] = false := by decide +kernel

theorem test_witness_ParameterReachesOnlyWaitKey : ∀ x, ¬ AboutToExecute (standing 0x6A3C State.reset) (.waitKey x) := by
  intro x h
  have e : decode (standing 0x6A3C State.reset).fetchWord = .loadImm 10 0x3C := by decide +kernel
  have := h.2.2.2
  rw [e] at this
  cases this

theorem test_witness_StepKeepsTheInvariantAtEveryParameter : Inv (deep 16) :=
  ⟨by decide +kernel, by decide +kernel, by decide +kernel, by decide +kernel⟩

/-- The lowest and the highest load base. -/
theorem test_witness_ResetAtEveryParameter : Config.loadBaseOk 0 = true ∧ Config.loadBaseOk 4094 = true ∧
    Config.loadBaseOk 4095 = false ∧ Config.loadBaseOk Config.defaults.loadBase = true := by decide

/-- The machine at the defaults has the reset state and the step of the machine. -/
theorem test_machineAt_defaults : (machineAt Config.defaults).reset = State.reset := by rfl

end Sys2Proof.Tests
end

section
/-! PROOF. The instruction register (10_state.md R31): the latch overwrites it before the instruction runs, and no instruction writes it;
so a completed step leaves the fetched word there, and the earlier value survives only in a step that faults. -/

namespace Sys2Proof.Machine

/-- The latch forgets what `ir` held: the instruction begins in the same state (R70 line 4). -/
theorem latch_overwrites_ir (s : State) (v w : Word) : State.latch { s with ir := v } w = s.latch w := rfl

/-- No instruction lists `ir` among what it writes: only the latch does (R20, R31). -/
theorem ir_notMem_writtenBy (i : Instr) : Component.ir ∉ writtenBy i := by cases i <;> simp [writtenBy]

theorem Completed.ir_eq {i : Instr} {s t : State} (h : Completed i s t) : t.ir = s.ir :=
  h.1 .ir (ir_notMem_writtenBy i)

theorem Completed.runState_eq {i : Instr} {s t : State} (h : Completed i s t) : t.runState = s.runState := h.2.2

/-- With another value in `ir`, the step runs the same instruction to the same state `s1`; only the state a fault goes back to
differs. -/
theorem step_with_ir_of_exec {s s1 : State} (v : Word) (hr : s.runState = .running) (hf : s.fetchable = true)
    (he : exec (decode s.fetchWord) (s.latch s.fetchWord) = .next s1) :
    step { s with ir := v } = .next (endStep { s with ir := v } s1) :=
  step_of_exec (s := { s with ir := v }) hr hf ((congrArg (exec (decode s.fetchWord)) (latch_overwrites_ir s v s.fetchWord)).trans he)

/-- Settles O42: the program-counter fault keeps `ir`; an executed instruction either raises, and the step goes back to its start, `ir`
included, or completes from the latched state, which the earlier value does not reach. -/
theorem irIsWrittenAndNeverRead : Obligations.IrIsWrittenAndNeverRead := by
  unfold Obligations.IrIsWrittenAndNeverRead
  intro s t v hr hs
  rcases step_cases hs with ⟨hr', -⟩ | ⟨-, hf, rfl⟩ | ⟨-, hf, s1, he, rfl⟩
  · simp [hr] at hr'
  · exact ⟨by simp, fun _ => step_of_bad_pc (s := { s with ir := v }) hr hf⟩
  · have hv := step_with_ir_of_exec v hr hf he
    rcases exec_cases he with ⟨-, rfl⟩ | ⟨-, hc⟩
    · rw [endStep_raise] at hv ⊢
      exact ⟨by simp, fun _ => hv⟩
    · have hr1 : s1.runState = .running := hc.runState_eq.trans hr
      rw [endStep_of_running _ hr1] at hv ⊢
      exact ⟨fun _ => ⟨hc.ir_eq, hv⟩, by simp [hr1]⟩

end Sys2Proof.Machine
end

section
/-! PROOF. clear-display (40_display.md R100). -/

namespace Sys2Proof.Machine

/-- Settles O16: the answer puts the blank framebuffer in place; every cell of it is off, and replacing the framebuffer is all that
happened, whatever the ignored nibbles. -/
theorem clearDisplayTurnsEveryCellOff : Obligations.ClearDisplayTurnsEveryCellOff := by
  unfold Obligations.ClearDisplayTurnsEveryCellOff
  intro z s
  exact ⟨s.setFb Framebuffer.blank, exec_clearDisplay z s, cell_blank, unchanged_setFb s Framebuffer.blank⟩

end Sys2Proof.Machine
end

section
/-! PROOF. The register results without a flag: load-imm, add-imm, copy, or, and, xor (42_arith_logic.md R130 to R135). -/

namespace Sys2Proof.Machine

/-- An instruction that answers one register update reads back as that update, and keeps every item but the register file. -/
theorem writesOnlyReg_of_setReg {i : Instr} {s : State} {x : RegNum} {v : Byte} (h : exec i s = .next (s.setReg x v)) :
    WritesOnlyReg i s x v :=
  ⟨s.setReg x v, h, fun q => State.setReg_reg s x q v, unchanged_setReg s x v⟩

/-- The byte sum is the exact sum modulo 256 (R131). -/
theorem byte_add_eq_ofNat_mod (a b : Byte) : a + b = BitVec.ofNat 8 ((a.toNat + b.toNat) % 256) :=
  BitVec.eq_of_toNat_eq (by simp)

/-- Settles O24: each of the six answers one register update with its result; only add-imm's needs its sum put as a number modulo 256. -/
theorem plainResultsWriteNoFlag : Obligations.PlainResultsWriteNoFlag := by
  unfold Obligations.PlainResultsWriteNoFlag
  intro x y kk s
  rw [← byte_add_eq_ofNat_mod]
  exact ⟨writesOnlyReg_of_setReg (exec_loadImm x kk s), writesOnlyReg_of_setReg (exec_addImm x kk s),
    writesOnlyReg_of_setReg (exec_copy x y s), writesOnlyReg_of_setReg (exec_orReg x y s),
    writesOnlyReg_of_setReg (exec_andReg x y s), writesOnlyReg_of_setReg (exec_xorReg x y s)⟩

end Sys2Proof.Machine
end

section
/-! PROOF. set-index and font-char (43_index_memory.md R150, R152). -/

namespace Sys2Proof.Machine

/-- Widening the 12-bit operand to the 16-bit `index` keeps its value (R150). -/
@[simp] theorem address_toNat (a : BitVec 12) : (address a).toNat = a.toNat :=
  BitVec.toNat_setWidth_of_le (by decide)

/-- Widening a byte to a word keeps its value. -/
@[simp] theorem byteToWord_toNat (v : Byte) : (byteToWord v).toNat = v.toNat :=
  BitVec.toNat_setWidth_of_le (by decide)

/-- The glyph address of the whole byte is the exact number of R152: at most `0x50 + 5 * 255`, so the 16-bit sum does not wrap. -/
theorem glyphAddress_toNat (v : Byte) : (glyphAddress v).toNat = 0x50 + 5 * v.toNat := by
  have hv : v.toNat < 256 := v.isLt
  have hsum : (glyphAddress v).toNat = (0x50 + 5 * v.toNat % 65536) % 65536 := by
    simp [glyphAddress, Config.glyphBase]
  omega

/-- Settles O28: each of the two answers one update of `index`, with the widened operand or the glyph address, whose values the two
lemmas above give. -/
theorem setIndexAndFontCharWriteIndex : Obligations.SetIndexAndFontCharWriteIndex := by
  unfold Obligations.SetIndexAndFontCharWriteIndex
  intro nnn x s
  exact ⟨⟨s.setIndex (address nnn), exec_setIndex nnn s, address_toNat nnn, unchanged_setIndex s _⟩,
    ⟨s.setIndex (glyphAddress (s.reg x)), exec_fontChar x s, glyphAddress_toNat (s.reg x), unchanged_setIndex s _⟩⟩

end Sys2Proof.Machine
end

section
/-! PROOF. undefined-nop (45_undefined_word.md R170): the decoder's no-op carries the decoded word, and the step around it only latches,
ticks and drops the random input. -/

namespace Sys2Proof

/-- The decoder's no-op carries the word decoded (R78). Only the four categories that dispatch further answer it, each in its default
arm (R75). -/
theorem decode_eq_undefinedNop {w v : Word} (h : decode w = .undefinedNop v) : v = w := by
  unfold decode at h
  split at h
  case h_1 | h_9 | h_15 | h_16 =>
    simp only [decodeCategory0, decodeCategory8, decodeCategoryE, decodeCategoryF] at h
    split at h <;> cases h
    rfl
  all_goals cases h

namespace Machine

/-- A step about to execute the no-op has fetched exactly the word it carries. -/
theorem fetchWord_eq_of_undefinedNop {s : State} {w : Word} (h : AboutToExecute s (.undefinedNop w)) : s.fetchWord = w := by
  obtain ⟨-, -, -, hdecode⟩ := h
  exact (decode_eq_undefinedNop hdecode).symm

/-- The ordinary work of a completed step, around an instruction that does nothing (R70 lines 4, 5, 7 and 8). -/
theorem unchanged_latch_tick_nextRnd (s : State) (w : Word) :
    UnchangedExcept [.ir, .pc, .dt, .st, .rndIn, .draws] s (s.latch w).tick.nextRnd := by
  intro c hc; cases c <;> simp_all [Component.same]

/-- A step that executes the no-op latches, ticks and drops the random input. -/
theorem step_of_undefinedNop {s : State} {w : Word} (h : AboutToExecute s (.undefinedNop w)) :
    step s = .next (s.latch w).tick.nextRnd := by
  have hs := step_of_aboutToExecute h (exec_undefinedNop w _)
  rwa [endStep_of_running s (s1 := s.latch s.fetchWord) h.1, fetchWord_eq_of_undefinedNop h] at hs

/-- Settles O38: the no-op answers the state it is given, so the step around it is the latch of `w` and the end of a completed step. -/
theorem undefinedWordsDoNothing : Obligations.UndefinedWordsDoNothing := by
  unfold Obligations.UndefinedWordsDoNothing
  intro w s
  exact ⟨exec_undefinedNop w s, fun h => ⟨(s.latch w).tick.nextRnd, step_of_undefinedNop h, rfl, rfl, countDown_toNat s.dt,
    countDown_toNat s.st, unchanged_latch_tick_nextRnd s w⟩⟩

end Machine
end Sys2Proof
end

section
/-! PROOF. The program-counter fault (60_exceptions.md R182, R183). -/

namespace Sys2Proof.Machine

/-- The program counters a fetch refuses, as arithmetic (R182). -/
theorem fetchable_eq_false_iff (s : State) : s.fetchable = false ↔ 4094 < s.pc.toNat ∨ s.pc.toNat % 2 = 1 := by
  rw [← Bool.not_eq_true, fetchable_iff]
  omega

/-- Settles O9: a refused `pc` makes the step the raise alone, and a raise keeps every item but the run state and the reason. -/
theorem badProgramCounterFaults : Obligations.BadProgramCounterFaults := by
  unfold Obligations.BadProgramCounterFaults
  intro s hr hpc
  have hs : step s = .next (s.raise .invalidProgramCounter) := step_of_bad_pc hr ((fetchable_eq_false_iff s).2 hpc)
  exact ⟨s.raise .invalidProgramCounter, hs, State.raise_runState s _, State.raise_faultReason s _, unchanged_raise s _⟩

end Sys2Proof.Machine
end

section
/-! PROOF. The key flags (70_reset_and_hazards.md R214): SetKeys replaces all sixteen and nothing else, and no step writes one. -/

namespace Sys2Proof.Machine

/-- Bit `i` of a word, as the quotient and remainder R214's `k[i]` stands for. -/
theorem getLsbD_eq_decide_div_mod (k : BitVec 16) (i : Nat) : k.getLsbD i = decide (k.toNat / 2 ^ i % 2 = 1) :=
  Nat.testBit_eq_decide_div_mod_eq

theorem unchanged_setKey (s : State) (key : Vector Bool 16) : UnchangedExcept [.key] s (s.setKey key) := by
  intro c hc; cases c <;> simp_all [Component.same]

/-- Of two calls of SetKeys the last counts: it reads no flag the first one set. -/
theorem setKeys_setKeys (k k' : BitVec 16) (s : State) : setKeys k (setKeys k' s) = setKeys k s := rfl

/-- No instruction lists `key` among what it writes: only the host sets it (R20, R214). -/
theorem key_notMem_writtenBy (i : Instr) : Component.key ∉ writtenBy i := by cases i <;> simp [writtenBy]

theorem Completed.key_eq {i : Instr} {s t : State} (h : Completed i s t) : t.key = s.key :=
  h.1 .key (key_notMem_writtenBy i)

/-- An instruction keeps the key flags, whether it raises or completes. -/
theorem exec_keeps_key {i : Instr} {s t : State} (h : exec i s = .next t) : t.key = s.key := by
  rcases exec_cases h with ⟨-, rfl⟩ | ⟨-, hc⟩
  · exact State.raise_key s _
  · exact hc.key_eq

/-- The end of a step takes the key flags from its start or from the instruction's own state, so it keeps what these agree on. -/
theorem endStep_key {s s1 : State} (h : s1.key = s.key) : (endStep s s1).key = s.key := by
  unfold endStep
  split
  · exact State.raise_key s _
  · simpa using h

/-- A step keeps the key flags: FAULTED, at a refused `pc`, and around any instruction. -/
theorem step_keeps_key {s t : State} (h : step s = .next t) : t.key = s.key := by
  rcases step_cases h with ⟨-, rfl⟩ | ⟨-, -, rfl⟩ | ⟨-, -, s1, he, rfl⟩
  · rfl
  · exact State.raise_key s _
  · exact endStep_key ((exec_keeps_key he).trans (State.latch_key s _))

/-- Settles O51: SetKeys is one update of the key flags, whose values are the bits of its argument; and of the step, `step_keeps_key`. -/
theorem keysChangeOnlyBySetKeys : Obligations.KeysChangeOnlyBySetKeys := by
  unfold Obligations.KeysChangeOnlyBySetKeys
  intro k k' s
  exact ⟨fun j => (setKeys_getElem k s j).trans (getLsbD_eq_decide_div_mod k j.val), unchanged_setKey s _, setKeys_setKeys k k' s,
    fun _ => step_keeps_key⟩

end Sys2Proof.Machine
end

section
/-! PROOF. The decoder and the encoder are inverse, and both follow the opcode map (30_encoding.md R73 to R78). -/

namespace Sys2Proof

/-! The words outside the map (R78). -/

/-- The last arm of the decode procedure is category 0xF (R75). -/
theorem decode_of_catF {w : Word} (h : catOf w = 0xF) : decode w = decodeCategoryF w := by simp [decode, h]

/-- The sixteen categories, those that dispatch further named and the others together (R75). -/
theorem cat_cases (c : BitVec 4) : c = 0x0 ∨ c = 0x8 ∨ c = 0xE ∨ c = 0xF ∨
    c = 0x1 ∨ c = 0x2 ∨ c = 0x3 ∨ c = 0x4 ∨ c = 0x5 ∨ c = 0x6 ∨ c = 0x7 ∨ c = 0x9 ∨ c = 0xA ∨ c = 0xB ∨ c = 0xC ∨ c = 0xD := by
  revert c; decide

theorem decodeCategory0_eq_undefinedNop (w : Word) :
    decodeCategory0 w = .undefinedNop w ↔ ¬ (nOf w = 0x0 ∨ nOf w = 0xE) := by
  unfold decodeCategory0
  split <;> simp_all

theorem decodeCategory8_eq_undefinedNop (w : Word) : decodeCategory8 w = .undefinedNop w ↔
    nOf w = 0x8 ∨ nOf w = 0x9 ∨ nOf w = 0xA ∨ nOf w = 0xB ∨ nOf w = 0xC ∨ nOf w = 0xD ∨ nOf w = 0xF := by
  have others : ∀ n : BitVec 4, (n = 0x8 ∨ n = 0x9 ∨ n = 0xA ∨ n = 0xB ∨ n = 0xC ∨ n = 0xD ∨ n = 0xF) ↔
      ¬ (n = 0x0 ∨ n = 0x1 ∨ n = 0x2 ∨ n = 0x3 ∨ n = 0x4 ∨ n = 0x5 ∨ n = 0x6 ∨ n = 0x7 ∨ n = 0xE) := by decide
  rw [others]
  unfold decodeCategory8
  split <;> simp_all

theorem decodeCategoryE_eq_undefinedNop (w : Word) :
    decodeCategoryE w = .undefinedNop w ↔ ¬ (kkOf w = 0x9E ∨ kkOf w = 0xA1) := by
  unfold decodeCategoryE
  split <;> simp_all

theorem decodeCategoryF_eq_undefinedNop (w : Word) : decodeCategoryF w = .undefinedNop w ↔
    ¬ (kkOf w = 0x07 ∨ kkOf w = 0x0A ∨ kkOf w = 0x15 ∨ kkOf w = 0x18 ∨ kkOf w = 0x1E ∨ kkOf w = 0x29 ∨ kkOf w = 0x33 ∨
      kkOf w = 0x55 ∨ kkOf w = 0x65) := by
  unfold decodeCategoryF
  split <;> simp_all

/-- The listed words are those that decode to the no-op: category by category, and none in the twelve categories with one row. -/
theorem undefinedWord_iff (w : Word) : undefinedWord w = true ↔ decode w = .undefinedNop w := by
  rcases cat_cases (catOf w) with h | h | h | h | h
  · simp [decode, h, undefinedWord, decodeCategory0_eq_undefinedNop]
  · simp [decode, h, undefinedWord, decodeCategory8_eq_undefinedNop, or_assoc]
  · simp [decode, h, undefinedWord, decodeCategoryE_eq_undefinedNop]
  · simp [decode_of_catF h, h, undefinedWord, decodeCategoryF_eq_undefinedNop, and_assoc]
  · rcases h with h | h | h | h | h | h | h | h | h | h | h | h <;> simp [decode, h, undefinedWord]

/-- Settles O4: the list and the decoder agree, and the no-op carries the word decoded. -/
theorem noOpWordsAreThoseListed : Obligations.NoOpWordsAreThoseListed := by
  unfold Obligations.NoOpWordsAreThoseListed
  exact fun w => ⟨undefinedWord_iff w, fun _ => decode_eq_undefinedNop⟩

/-! Encoding, then decoding. -/

/-- Settles O1: the fields of the packed word are the operands, and its category and low bits lead the decoder to the same row; a
no-op's word is listed, so it decodes to the no-op. -/
theorem decodeInvertsEncode : Obligations.DecodeInvertsEncode := by
  unfold Obligations.DecodeInvertsEncode
  intro i hi
  cases i with
  | undefinedNop w => exact (undefinedWord_iff w).1 hi
  | _ => simp [encode, decode, decodeCategory0, decodeCategory8, decodeCategoryE, decodeCategoryF]

/-! Decoding, then encoding. -/

theorem encode_decodeCategory0 {w : Word} (h : catOf w = 0x0) : encode (decodeCategory0 w) = w := by
  have hw := packZ_fields w h
  unfold decodeCategory0
  split <;> simp_all [encode]

theorem encode_decodeCategory8 {w : Word} (h : catOf w = 0x8) : encode (decodeCategory8 w) = w := by
  have hw := packR_fields w
  unfold decodeCategory8
  split <;> simp_all [encode]

theorem encode_decodeCategoryE {w : Word} (h : catOf w = 0xE) : encode (decodeCategoryE w) = w := by
  have hw := packI_fields w
  unfold decodeCategoryE
  split <;> simp_all [encode]

theorem encode_decodeCategoryF {w : Word} (h : catOf w = 0xF) : encode (decodeCategoryF w) = w := by
  have hw := packI_fields w
  unfold decodeCategoryF
  split <;> simp_all [encode]

/-- A word is the packing of its fields, whatever the format its category selects. -/
theorem encode_decode (w : Word) : encode (decode w) = w := by
  have hA := packA_fields w
  have hI := packI_fields w
  have hR := packR_fields w
  rcases cat_cases (catOf w) with h | h | h | h | h
  · simpa [decode, h] using encode_decodeCategory0 h
  · simpa [decode, h] using encode_decodeCategory8 h
  · simpa [decode, h] using encode_decodeCategoryE h
  · simpa [decode_of_catF h] using encode_decodeCategoryF h
  · rcases h with h | h | h | h | h | h | h | h | h | h | h | h <;> rw [h] at hA hI hR <;> simpa [decode, h, encode]

theorem wf_decode (w : Word) : (decode w).wf = true := by
  cases h : decode w with
  | undefinedNop v =>
    obtain rfl := decode_eq_undefinedNop h
    exact (undefinedWord_iff v).2 h
  | _ => rfl

/-- The two bytes of a word, high byte first, decode as the word (R52, R73). -/
theorem decodeBytes_bytes (w : Word) (rest : List Byte) : decodeBytes (highByte w :: lowByte w :: rest) = .ok (decode w, rest) := by
  simp [decodeBytes]

/-- Settles O2. -/
theorem encodeInvertsDecode : Obligations.EncodeInvertsDecode := by
  unfold Obligations.EncodeInvertsDecode
  intro w rest
  refine ⟨wf_decode w, encode_decode w, ?_⟩
  rw [encodeBytes, encode_decode]
  exact decodeBytes_bytes w rest

/-! The opcode map (R76). -/

/-- Every instruction's word selects the row that carries its mnemonic. -/
theorem encode_selects_row (i : Instr) : Laws.EncodeRow.Statement i := by
  cases i with
  | clearDisplay z => exact Laws.EncodeRow.clearDisplay z
  | ret z => exact Laws.EncodeRow.ret z
  | jump a => exact Laws.EncodeRow.jump a
  | call a => exact Laws.EncodeRow.call a
  | skipEqImm x k => exact Laws.EncodeRow.skipEqImm x k
  | skipNeImm x k => exact Laws.EncodeRow.skipNeImm x k
  | skipEqReg x y z => exact Laws.EncodeRow.skipEqReg x y z
  | loadImm x k => exact Laws.EncodeRow.loadImm x k
  | addImm x k => exact Laws.EncodeRow.addImm x k
  | copy x y => exact Laws.EncodeRow.copy x y
  | orReg x y => exact Laws.EncodeRow.orReg x y
  | andReg x y => exact Laws.EncodeRow.andReg x y
  | xorReg x y => exact Laws.EncodeRow.xorReg x y
  | addReg x y => exact Laws.EncodeRow.addReg x y
  | subReg x y => exact Laws.EncodeRow.subReg x y
  | shiftRight x y => exact Laws.EncodeRow.shiftRight x y
  | subRegRev x y => exact Laws.EncodeRow.subRegRev x y
  | shiftLeft x y => exact Laws.EncodeRow.shiftLeft x y
  | skipNeReg x y z => exact Laws.EncodeRow.skipNeReg x y z
  | setIndex a => exact Laws.EncodeRow.setIndex a
  | jumpOffset a => exact Laws.EncodeRow.jumpOffset a
  | randomAnd x k => exact Laws.EncodeRow.randomAnd x k
  | draw x y n => exact Laws.EncodeRow.draw x y n
  | skipIfKey x => exact Laws.EncodeRow.skipIfKey x
  | skipIfNotKey x => exact Laws.EncodeRow.skipIfNotKey x
  | getDelay x => exact Laws.EncodeRow.getDelay x
  | waitKey x => exact Laws.EncodeRow.waitKey x
  | setDelay x => exact Laws.EncodeRow.setDelay x
  | setSound x => exact Laws.EncodeRow.setSound x
  | addIndex x => exact Laws.EncodeRow.addIndex x
  | fontChar x => exact Laws.EncodeRow.fontChar x
  | storeBcd x => exact Laws.EncodeRow.storeBcd x
  | storeRegs x => exact Laws.EncodeRow.storeRegs x
  | loadRegs x => exact Laws.EncodeRow.loadRegs x
  | undefinedNop w => exact Laws.EncodeRow.undefinedNop w

theorem mnemonic_decodeCategory0_congr {v w : Word} (hn : nOf w = nOf v) :
    (decodeCategory0 w).mnemonic = (decodeCategory0 v).mnemonic := by
  unfold decodeCategory0
  rw [hn]
  split <;> rfl

theorem mnemonic_decodeCategory8_congr {v w : Word} (hn : nOf w = nOf v) :
    (decodeCategory8 w).mnemonic = (decodeCategory8 v).mnemonic := by
  unfold decodeCategory8
  rw [hn]
  split <;> simp_all [Instr.mnemonic]

theorem mnemonic_decodeCategoryE_congr {v w : Word} (hk : kkOf w = kkOf v) :
    (decodeCategoryE w).mnemonic = (decodeCategoryE v).mnemonic := by
  unfold decodeCategoryE
  rw [hk]
  split <;> simp_all [Instr.mnemonic]

theorem mnemonic_decodeCategoryF_congr {v w : Word} (hk : kkOf w = kkOf v) :
    (decodeCategoryF w).mnemonic = (decodeCategoryF v).mnemonic := by
  unfold decodeCategoryF
  rw [hk]
  split <;> simp_all [Instr.mnemonic]

/-- What the decoder looks at to choose a row: the category, and the low bits that this category dispatches on (R75). -/
theorem mnemonic_decode_congr {v w : Word} (hc : catOf w = catOf v) (hn : catOf v = 0x0 ∨ catOf v = 0x8 → nOf w = nOf v)
    (hk : catOf v = 0xE ∨ catOf v = 0xF → kkOf w = kkOf v) : (decode w).mnemonic = (decode v).mnemonic := by
  rcases cat_cases (catOf v) with h | h | h | h | h
  · simpa [decode, hc, h] using mnemonic_decodeCategory0_congr (hn (.inl h))
  · simpa [decode, hc, h] using mnemonic_decodeCategory8_congr (hn (.inr h))
  · simpa [decode, hc, h] using mnemonic_decodeCategoryE_congr (hk (.inl h))
  · rw [decode_of_catF h, decode_of_catF (hc.trans h)]
    exact mnemonic_decodeCategoryF_congr (hk (.inr h))
  · rcases h with h | h | h | h | h | h | h | h | h | h | h | h <;> simp [decode, hc, h, Instr.mnemonic]

/-- Each row fixes what the decoder looks at: the category alone, the category and `N`, or the category and `KK` (R76). -/
theorem opcodeMap_masks : ∀ row ∈ opcodeMap,
    (row.mask = 0xF000 ∧ ¬ (catOf row.bits = 0x0 ∨ catOf row.bits = 0x8) ∧ ¬ (catOf row.bits = 0xE ∨ catOf row.bits = 0xF)) ∨
    (row.mask = 0xF00F ∧ ¬ (catOf row.bits = 0xE ∨ catOf row.bits = 0xF)) ∨
    (row.mask = 0xF0FF ∧ ¬ (catOf row.bits = 0x0 ∨ catOf row.bits = 0x8)) := by decide

/-- A row's own bits decode to its instruction. -/
theorem mnemonic_decode_bits : ∀ row ∈ opcodeMap, (decode row.bits).mnemonic = row.mnemonic := by decide

theorem catOf_and (w m : Word) : catOf (w &&& m) = catOf w &&& catOf m := BitVec.extractLsb'_and
theorem nOf_and (w m : Word) : nOf (w &&& m) = nOf w &&& nOf m := BitVec.extractLsb'_and
theorem kkOf_and (w m : Word) : kkOf (w &&& m) = kkOf w &&& kkOf m := BitVec.extractLsb'_and

/-- A word that selects a row agrees with the row's bits in what the decoder looks at, so it decodes as they do. -/
theorem mnemonic_decode_of_selects {w : Word} {row : OpcodeRow} (hr : row ∈ opcodeMap) (hs : row.selects w) :
    (decode w).mnemonic = row.mnemonic := by
  rw [← mnemonic_decode_bits row hr]
  obtain ⟨mnemonic, bits, mask⟩ := row
  obtain rfl : w &&& mask = bits := hs
  rcases opcodeMap_masks _ hr with ⟨rfl, hn, hk⟩ | ⟨rfl, hk⟩ | ⟨rfl, hn⟩
  · have hc : catOf w = catOf (w &&& 0xF000) := by rw [catOf_and]; exact (BitVec.and_allOnes).symm
    exact mnemonic_decode_congr hc (fun h => absurd h hn) (fun h => absurd h hk)
  · have hc : catOf w = catOf (w &&& 0xF00F) := by rw [catOf_and]; exact (BitVec.and_allOnes).symm
    have hn : nOf w = nOf (w &&& 0xF00F) := by rw [nOf_and]; exact (BitVec.and_allOnes).symm
    exact mnemonic_decode_congr hc (fun _ => hn) (fun h => absurd h hk)
  · have hc : catOf w = catOf (w &&& 0xF0FF) := by rw [catOf_and]; exact (BitVec.and_allOnes).symm
    have hk : kkOf w = kkOf (w &&& 0xF0FF) := by rw [kkOf_and]; exact (BitVec.and_allOnes).symm
    exact mnemonic_decode_congr hc (fun h => absurd h hn) (fun _ => hk)

/-- A word selects exactly the row of the instruction it decodes to. -/
theorem selects_iff_mnemonic {w : Word} {row : OpcodeRow} (hr : row ∈ opcodeMap) :
    row.selects w ↔ (decode w).mnemonic = row.mnemonic := by
  refine ⟨mnemonic_decode_of_selects hr, fun h => ?_⟩
  have hs : row.selects (encode (decode w)) := encode_selects_row (decode w) row hr h.symm
  rwa [encode_decode] at hs

/-- Every mnemonic but the no-op's is that of a row. -/
theorem mnemonic_mem_opcodeMap (i : Instr) : i.mnemonic = "undefined-nop" ∨ i.mnemonic ∈ opcodeMap.map OpcodeRow.mnemonic := by
  cases i with
  | undefinedNop w => exact .inl rfl
  | _ => exact .inr (of_decide_eq_true rfl)

/-- Settles O3: a row selects the words of its own instruction, so no row selects a word exactly when its mnemonic is no row's. -/
theorem decodeFollowsOpcodeMap : Obligations.DecodeFollowsOpcodeMap := by
  unfold Obligations.DecodeFollowsOpcodeMap
  refine fun w => ⟨fun row hr => selects_iff_mnemonic hr, fun h => ?_, fun h row hr hs => ?_⟩
  · rcases mnemonic_mem_opcodeMap (decode w) with hn | hm
    · exact hn
    · obtain ⟨row, hr, hm⟩ := List.mem_map.1 hm
      exact absurd ((selects_iff_mnemonic hr).2 hm.symm) (h row hr)
  · have hm : row.mnemonic = "undefined-nop" := ((selects_iff_mnemonic hr).1 hs).symm.trans h
    exact absurd hm ((by decide : ∀ row ∈ opcodeMap, row.mnemonic ≠ "undefined-nop") row hr)

/-- Settles O5: twelve closed words. -/
theorem sampleWordsDecode : Obligations.SampleWordsDecode := by
  unfold Obligations.SampleWordsDecode
  decide

end Sys2Proof
end

section
/-! PROOF. The canonical form of the memory has one list for each contents (assumption log 9). -/

namespace Sys2Proof.Machine

namespace Memory

/-- The first entry's address lies below all the others, so its byte is what the list reads there. -/
theorem read_cons_self (k : Nat) (v : Byte) (m : Memory) : read ((k, v) :: m) k = v := if_pos rfl

/-- A first entry is told from any list that lies above its address: its own byte is no unlisted one. -/
theorem read_cons_ne_of_above {k : Nat} {v : Byte} {m m' : Memory} (hk : entryOk (k, v)) (h : above k m') :
    read ((k, v) :: m) k ≠ read m' k := by
  rw [read_cons_self, read_of_above h]
  exact hk.2

theorem above_cons {a k : Nat} {v : Byte} {m : Memory} (hak : a < k) (h : above k m) : above a ((k, v) :: m) := by
  intro c hc
  rcases List.mem_cons.1 hc with rfl | hc
  · exact hak
  · exact hak.trans (h c hc)

/-- Taking away a common first entry keeps two lists alike: at its address both read as unlisted. -/
theorem tails_alike {k : Nat} {v : Byte} {m m' : Memory} (hm : above k m) (hm' : above k m') {a : Nat}
    (h : read ((k, v) :: m) a = read ((k, v) :: m') a) : read m a = read m' a := by
  by_cases e : a = k
  · rw [e, read_of_above hm, read_of_above hm']
  · rwa [read_cons, read_cons, if_neg e, if_neg e] at h

theorem eq_of_reads {m m' : Memory} (hw : m.wf = true) (hw' : m'.wf = true) (h : ∀ a, a ≤ 0xFFF → m.read a = m'.read a) :
    m = m' := by
  induction m generalizing m' with
  | nil =>
    cases m' with
    | nil => rfl
    | cons c' m' =>
      obtain ⟨-, hc', -⟩ := (wf_cons c' m').1 hw'
      exact absurd (h c'.1 hc'.1).symm (read_cons_ne_of_above hc' (by simp [above]))
  | cons c m ih =>
    obtain ⟨k, v⟩ := c
    obtain ⟨hk, hc, hm⟩ := (wf_cons _ m).1 hw
    cases m' with
    | nil => exact absurd (h k hc.1) (read_cons_ne_of_above hc (by simp [above]))
    | cons c' m' =>
      obtain ⟨k', v'⟩ := c'
      obtain ⟨hk', hc', hm'⟩ := (wf_cons _ m').1 hw'
      rcases Nat.lt_trichotomy k k' with hlt | rfl | hlt
      · exact absurd (h k hc.1) (read_cons_ne_of_above hc (above_cons hlt hk'))
      · obtain rfl : v = v' := by simpa [read_cons_self] using h k hc.1
        rw [ih hm hm' fun a ha => tails_alike hk hk' (h a ha)]
      · exact absurd (h k' hc'.1).symm (read_cons_ne_of_above hc' (above_cons hlt hk))

end Memory

/-- Settles O6, by induction on the lists: the lower of two different first addresses would read differently. -/
theorem memoriesReadingAlikeAreEqual : Obligations.MemoriesReadingAlikeAreEqual := by
  unfold Obligations.MemoriesReadingAlikeAreEqual
  exact fun _ _ => Memory.eq_of_reads

end Sys2Proof.Machine
end

section
/-! PROOF. The step and its faults (30_encoding.md R70 to R72; 60_exceptions.md R181 to R189). -/

namespace Sys2Proof.Machine

/-! What a completed step takes over from its instruction (R20). -/

theorem Completed.dt_eq {i : Instr} {s t : State} (h : Completed i s t) (hi : Component.dt ∉ writtenBy i) : t.dt = s.dt :=
  h.1 .dt hi

theorem Completed.st_eq {i : Instr} {s t : State} (h : Completed i s t) (hi : Component.st ∉ writtenBy i) : t.st = s.st :=
  h.1 .st hi

/-! The fetch. -/

/-- The word fetched is the one the two bytes at `pc` decode as (R52, R71). -/
theorem decode_fetchWord_of_decodeBytes {s : State} {i : Instr} {rest : List Byte}
    (h : decodeBytes [s.mem.read s.pc.toNat, s.mem.read (s.pc.toNat + 1)] = .ok (i, rest)) : decode s.fetchWord = i := by
  simp only [decodeBytes, Except.ok.injEq, Prod.mk.injEq] at h
  exact h.1

/-- The end of a step, as one conditional over the instruction's state. -/
theorem endStep_eq (s0 s1 : State) :
    endStep s0 s1 = if s1.runState = .faulted then s0.raise s1.faultReason else s1.tick.nextRnd := by
  unfold endStep
  cases s1.runState <;> rfl

/-- Settles O8: each clause is one case of the step, and the records it writes out are the updates of the model. -/
theorem stepRunsTheDecodedInstruction : Obligations.StepRunsTheDecodedInstruction := by
  unfold Obligations.StepRunsTheDecodedInstruction
  refine fun s => ⟨step_of_faulted, fun hr hpc => step_of_bad_pc hr ((fetchable_eq_false_iff s).2 hpc), ?_⟩
  intro i rest hr hle heven hb _
  obtain ⟨t, ht⟩ := exec_answers i (s.latch s.fetchWord)
  have hs : step s = .next (endStep s t) := step_of_aboutToExecute ⟨hr, hle, heven, decode_fetchWord_of_decodeBytes hb⟩ ht
  have ht' : exec i { s with ir := bigEndian (s.mem.read s.pc.toNat) (s.mem.read (s.pc.toNat + 1)), pc := s.pc + 2 } = .next t := ht
  rw [hs, ht', endStep_eq]
  rfl

theorem step_answers (s : State) : ∃ t, step s = .next t := by
  cases hr : s.runState with
  | faulted => exact ⟨s, step_of_faulted hr⟩
  | running =>
    cases hf : s.fetchable with
    | false => exact ⟨_, step_of_bad_pc hr hf⟩
    | true =>
      obtain ⟨s1, h1⟩ := exec_answers (decode s.fetchWord) (s.latch s.fetchWord)
      exact ⟨_, step_of_exec hr hf h1⟩

/-- Settles O10: the step answers, and what it returned is read from the run state of the answer. -/
theorem everyStepAnswersANextState : Obligations.EveryStepAnswersANextState := by
  unfold Obligations.EveryStepAnswersANextState
  intro s
  obtain ⟨t, ht⟩ := step_answers s
  refine ⟨t, ht, ?_⟩
  cases hr : t.runState with
  | running => exact .inl ⟨rfl, by simp [stepResult, hr]⟩
  | faulted => exact .inr ⟨rfl, by simp [stepResult, hr]⟩

/-- Settles O11: the instruction completes when no fault is due, and otherwise raises the one that is due. -/
theorem faultsAreExactlyThoseDue : Obligations.FaultsAreExactlyThoseDue := by
  unfold Obligations.FaultsAreExactlyThoseDue
  intro s i h
  obtain ⟨t, ht⟩ := step_answers s
  refine ⟨t, ht, ?_⟩
  rcases step_aboutToExecute_cases h ht with ⟨s1, -, -, hr, hf, rfl⟩ | ⟨hf, rfl⟩
  · simp [hr, hf]
  · simp [hf]

/-- A step that leaves a running machine FAULTED is a raise: by the fetch, or of the fault that is due. -/
theorem step_to_faulted_eq_raise {s t : State} (hr : s.runState = .running) (hs : step s = .next t) (ht : t.runState = .faulted) :
    ∃ r, t = s.raise r := by
  cases hf : s.fetchable with
  | false =>
    rw [step_of_bad_pc hr hf] at hs
    injection hs with hs
    exact ⟨_, hs.symm⟩
  | true =>
    rcases step_aboutToExecute_cases (aboutToExecute_of_fetchable hr hf) hs with ⟨s1, -, -, hr1, -, rfl⟩ | ⟨-, rfl⟩
    · simp [hr1] at ht
    · exact ⟨_, rfl⟩

/-- Settles O12. -/
theorem faultsArePrecise : Obligations.FaultsArePrecise := by
  unfold Obligations.FaultsArePrecise
  intro s t hr hs ht
  obtain ⟨r, rfl⟩ := step_to_faulted_eq_raise hr hs ht
  exact unchanged_raise s r

theorem UnchangedExcept.trans {l : List Component} {s t u : State} (h : UnchangedExcept l s t) (h' : UnchangedExcept l t u) :
    UnchangedExcept l s u := by
  intro c hc
  have h1 := h c hc
  have h2 := h' c hc
  cases c with
  | mem => exact ⟨h2.1.trans h1.1, fun a => (h2.2 a).trans (h1.2 a)⟩
  | _ => exact h2.trans h1

/-- What the host does before a step changes only the keys and the random byte (R37). -/
theorem unchanged_host_inputs (k : BitVec 16) (r : Byte) (s : State) :
    UnchangedExcept [.key, .rndIn] s (supplyRnd r (setKeys k s)) := by
  intro c hc; cases c <;> simp_all [Component.same]

/-- A turn of a FAULTED machine is what the host did alone (R188). -/
theorem turn_of_faulted {k : BitVec 16} {r : Byte} {s : State} (hr : s.runState = .faulted) :
    turn k r s = .next (supplyRnd r (setKeys k s)) := step_of_faulted (by simpa using hr)

/-- Settles O13, by induction on the turns. -/
theorem faultedIsTerminal : Obligations.FaultedIsTerminal := by
  unfold Obligations.FaultedIsTerminal
  intro turns
  induction turns with
  | nil => exact fun s _ => ⟨s, rfl, .rfl_of _ s⟩
  | cons kr rest ih =>
    obtain ⟨k, r⟩ := kr
    intro s hr
    obtain ⟨t, ht, hu⟩ := ih (supplyRnd r (setKeys k s)) (by simpa using hr)
    exact ⟨t, (runTurns_cons (turn_of_faulted hr)).trans ht, (unchanged_host_inputs k r s).trans hu⟩

/-- Settles O14: six closed equations. -/
theorem faultCodesAreAsListed : Obligations.FaultCodesAreAsListed := by
  unfold Obligations.FaultCodesAreAsListed
  decide

/-- Settles O15: the tick counts down what the instruction left in each timer, which is what it held before unless the instruction is the
timer's own writer; a fault keeps both. -/
theorem timersTickOncePerCompletedStep : Obligations.TimersTickOncePerCompletedStep := by
  unfold Obligations.TimersTickOncePerCompletedStep
  intro s t i h hs
  rcases step_aboutToExecute_cases h hs with ⟨s1, he, hc, hr, -, rfl⟩ | ⟨-, rfl⟩
  · refine ⟨fun _ => ⟨(countDown_toNat s1.dt).trans ?_, (countDown_toNat s1.st).trans ?_, ?_⟩, fun hf => by simp [hr] at hf⟩
    · cases i with
      | setDelay x => injection he with he; subst he; rfl
      | _ => rw [hc.dt_eq (by simp [writtenBy])]; rfl
    · cases i with
      | setSound x => injection he with he; subst he; rfl
      | _ => rw [hc.st_eq (by simp [writtenBy])]; rfl
    · rintro x rfl
      injection he with he
      subst he
      simp
  · exact ⟨fun hf => by simp at hf, fun _ => ⟨rfl, rfl⟩⟩

/-- Settles O7: the store leaves the two registers' bytes at the next word, and the latched `pc` stands there. -/
theorem storedWordIsFetchedNext : Obligations.StoredWordIsFetchedNext := by
  unfold Obligations.StoredWordIsFetchedNext
  intro s x hw h hx hi hle
  have hstore : ∀ j (hj : j ≤ x.val), (s.mem.writeBytes s.index.toNat (registersTo s.x x)).read (s.index.toNat + j) = s.x[j] := by
    intro j hj
    rw [Memory.read_writeBytes_inside _ _ j _ hw (by simp; omega) (by simp; omega), registersTo_getElem]
  obtain ⟨-, hpcle, -, -⟩ := id h
  have hpc : s.pc + 2 = s.index := BitVec.eq_of_toNat_eq (by bv_omega)
  have he : exec (.storeRegs x) (s.latch s.fetchWord) =
      .next ((s.latch s.fetchWord).setMem (s.mem.writeBytes s.index.toNat (registersTo s.x x))) :=
    State.transfer_of_inRange _ (.inr (by show s.index.toNat + _ ≤ _; omega))
  have hs := step_of_aboutToExecute h he
  rw [endStep_of_running _ (by simpa using h.1)] at hs
  refine ⟨_, hs, by simpa using h.1, hpc, ?_⟩
  show bigEndian (Memory.read _ (s.pc + 2).toNat) (Memory.read _ ((s.pc + 2).toNat + 1)) = _
  rw [hpc]
  exact congrArg₂ bigEndian (hstore 0 (Nat.zero_le _)) (hstore 1 hx)

end Sys2Proof.Machine
end

section
/-! PROOF. draw (40_display.md R101): what the loops toggle is what the sprite covers. -/

namespace Sys2Proof.Machine

/-- The framebuffer and the collision that draw computes (R101). -/
def drawnCanvas (s : State) (x y : RegNum) (n : BitVec 4) : Canvas :=
  drawSprite (s.mem.readBytes s.index.toNat n.toNat) (startColumn (s.reg x)) (startRow (s.reg y)) s.fb

/-- draw toggles the cells that the sprite covers (R101). -/
theorem drawnCanvas_toggles (s : State) (x y : RegNum) (n : BitVec 4) :
    Toggles (spriteCovers s x y n) (s.fb, false) (drawnCanvas s x y n) := by
  refine (drawSprite_toggles _ _ _ s.fb).congr fun r c => ?_
  simp only [Memory.readBytes_length, Memory.readBytes_getElem]
  constructor
  · rintro ⟨h0, h1, h2, h3, h4⟩
    exact ⟨h0, by have : r.val - (s.reg y).toNat % 32 < n.toNat := h1; omega, h2, h3, h4⟩
  · rintro ⟨h0, h1, h2, h3, h4⟩
    exact ⟨h0, by show r.val - (s.reg y).toNat % 32 < n.toNat; omega, h2, h3, h4⟩

/-- draw in range: the canvas it computes, its collision last (R101). -/
theorem exec_draw_of_inRange {x y : RegNum} {n : BitVec 4} {s : State} (h : n.toNat = 0 ∨ s.index.toNat + n.toNat - 1 ≤ 0xFFF) :
    exec (.draw x y n) s = .next ((s.setFb (drawnCanvas s x y n).1).setFlag (drawnCanvas s x y n).2) :=
  State.transfer_of_inRange _ (by omega)

/-- An instruction whose transfer leaves memory raises, and nothing else (R54, R186). -/
theorem raisesOnly_of_transfer {i : Instr} {s u : State} {n : Nat} (he : exec i s = s.transfer n u) (h0 : 0 < n)
    (h : 0x1000 < s.index.toNat + n) : RaisesOnly i s .memoryAddressOutOfRange :=
  ⟨_, he.trans (State.transfer_of_outside u h0 h), rfl, rfl, unchanged_raise s _⟩

theorem flagByte_eq_one_iff (b : Bool) : flagByte b = 1 ↔ b = true := by cases b <;> simp [flagByte]

/-- Settles O17: the loops toggle the covered cells, and the collision they carry is the flag. -/
theorem drawTogglesTheCoveredCells : Obligations.DrawTogglesTheCoveredCells := by
  unfold Obligations.DrawTogglesTheCoveredCells
  intro x y n s
  obtain ⟨hcells, hhit⟩ := drawnCanvas_toggles s x y n
  simp only [Bool.false_eq_true, false_or] at hhit
  refine ⟨fun hr => ⟨_, exec_draw_of_inRange hr, hcells, fun hon => ?_, fun hoff => ?_, fun q hq => ?_,
    unchanged_setFb_setFlag s _ _⟩, fun h0 h => raisesOnly_of_transfer rfl (by omega) (by omega)⟩
  · simp [flagByte, hhit.2 hon]
  · simp [flagByte, mt hhit.1 hoff]
  · simp [hq]; rfl

/-- The sprite of a draw is where the sprite of the draw before it was, as long as neither coordinate is in the flag register. -/
theorem spriteCovers_setFb_setFlag {s : State} {x y : RegNum} (hx : x ≠ 15) (hy : y ≠ 15) (n : BitVec 4) (fb : Framebuffer) (b : Bool) :
    spriteCovers ((s.setFb fb).setFlag b) x y n = spriteCovers s x y n := by
  have hreg : ∀ q : RegNum, q ≠ 15 → ((s.setFb fb).setFlag b).reg q = s.reg q := fun q hq => by simp [hq]; rfl
  unfold spriteCovers
  simp only [hreg x hx, hreg y hy, State.setFlag_mem, State.setFb_mem, State.setFlag_index, State.setFb_index]

/-- Toggling the same cells twice restores them (R101). -/
theorem Toggles.twice {P : Fin 32 → Fin 64 → Prop} {fb : Framebuffer} {hit hit' : Bool} {d d' : Canvas} (h : Toggles P (fb, hit) d)
    (h' : Toggles P (d.1, hit') d') : d'.1 = fb := by
  obtain ⟨hd, -⟩ := h
  obtain ⟨hd', -⟩ := h'
  refine Framebuffer.ext fun r c => ?_
  by_cases hp : P r c
  · rw [(hd' r c).1 hp, (hd r c).1 hp, Bool.not_not]
  · rw [(hd' r c).2 hp, (hd r c).2 hp]

/-- A toggled cell that is on afterwards is one that the toggle turned on. -/
theorem Toggles.turned_on_iff {P : Fin 32 → Fin 64 → Prop} {fb : Framebuffer} {hit : Bool} {d : Canvas} (h : Toggles P (fb, hit) d)
    (r : Fin 32) (c : Fin 64) : P r c ∧ cell d.1 r c = true ↔ cell fb r c = false ∧ cell d.1 r c = true := by
  obtain ⟨hd, -⟩ := h
  by_cases hp : P r c
  · simp [(hd r c).1 hp, hp]
  · simp [(hd r c).2 hp, hp]

/-- Settles O18: the second draw toggles the same cells, and collides on those that the first left on. -/
theorem drawingTwiceRestoresTheDisplay : Obligations.DrawingTwiceRestoresTheDisplay := by
  unfold Obligations.DrawingTwiceRestoresTheDisplay
  intro x y n s hx hy hr
  have h1 := drawnCanvas_toggles s x y n
  let t := (s.setFb (drawnCanvas s x y n).1).setFlag (drawnCanvas s x y n).2
  have h2 : Toggles (spriteCovers s x y n) (t.fb, false) (drawnCanvas t x y n) :=
    spriteCovers_setFb_setFlag hx hy n _ _ ▸ drawnCanvas_toggles t x y n
  refine ⟨t, _, exec_draw_of_inRange hr, exec_draw_of_inRange (s := t) hr, h1.twice h2, ?_⟩
  have hhit := h2.2
  simp only [Bool.false_eq_true, false_or] at hhit
  rw [State.setFlag_reg, if_pos rfl, flagByte_eq_one_iff, hhit]
  exact exists_congr fun r => exists_congr fun c => h1.turned_on_iff r c

end Sys2Proof.Machine
end

section
/-! PROOF. return, jump, call, the skips (41_control_flow.md R110 to R117; 44_timer_input.md R160, R161). -/

namespace Sys2Proof.Machine

/-! The stack. -/

theorem exec_ret_of_pos (z : BitVec 8) {s : State} (h : 0 < s.sp.val) :
    exec (.ret z) s = .next { s with pc := s.stack[s.sp.val - 1]'(by omega), sp := ⟨s.sp.val - 1, by omega⟩ } := by
  simp only [exec, execRet, State.popToPc?_of_pos s h]

theorem exec_ret_of_zero (z : BitVec 8) {s : State} (h : s.sp.val = 0) : exec (.ret z) s = .next (s.raise .stackUnderflow) := by
  simp only [exec, execRet, (State.popToPc?_eq_none s).2 h]

theorem exec_call_of_lt (a : BitVec 12) {s : State} (h : s.sp.val < 16) : exec (.call a) s =
    .next { s with pc := address a, stack := s.stack.set s.sp.val s.pc h, sp := ⟨s.sp.val + 1, by omega⟩ } := by
  simp only [exec, execCall, State.push?_of_lt s s.pc h]
  rfl

theorem exec_call_of_full (a : BitVec 12) {s : State} (h : s.sp.val = 16) : exec (.call a) s = .next (s.raise .stackOverflow) := by
  simp only [exec, execCall, (State.push?_eq_none s _).2 h]

/-- An instruction that answers a raise raises only (R183). -/
theorem raisesOnly_of_raise {i : Instr} {s : State} {r : FaultReason} (h : exec i s = .next (s.raise r)) : RaisesOnly i s r :=
  ⟨_, h, rfl, rfl, unchanged_raise s r⟩

/-- Settles O19. -/
theorem returnPopsTheReturnAddress : Obligations.ReturnPopsTheReturnAddress := by
  unfold Obligations.ReturnPopsTheReturnAddress
  refine fun z s => ⟨fun k hk => ⟨_, exec_ret_of_pos z (by omega), ?_, ?_, ?_⟩, fun h => raisesOnly_of_raise (exec_ret_of_zero z h)⟩
  · simp [← hk]
  · simp [← hk]
  · intro c hc; cases c <;> simp_all [Component.same]

/-- Settles O20. -/
theorem callPushesTheAdvancedProgramCounter : Obligations.CallPushesTheAdvancedProgramCounter := by
  unfold Obligations.CallPushesTheAdvancedProgramCounter
  refine fun a s => ⟨fun k hk => ⟨_, exec_call_of_lt a (by omega), address_toNat a, ?_, ?_, fun j hj => ?_, ?_⟩,
    fun h => raisesOnly_of_raise (exec_call_of_full a h)⟩
  · simp [hk]
  · simp [← hk]
  · exact Vector.getElem_set_ne (by omega) j.isLt (by rw [← hk]; exact fun e => hj (Fin.ext e.symm))
  · intro c hc; cases c <;> simp_all [Component.same]

/-- Settles O21: the return reads the slot that the call wrote, the last one held. -/
theorem returnUndoesCall : Obligations.ReturnUndoesCall := by
  unfold Obligations.ReturnUndoesCall
  refine fun a z pc s h => ⟨_, _, exec_call_of_lt a h, exec_ret_of_pos z (Nat.succ_pos _), ?_, ?_, fun j hj => ?_, ?_⟩
  · simp
  · simp
  · exact Vector.getElem_set_ne h j.isLt (Ne.symm hj)
  · intro c hc; cases c <;> simp_all [Component.same]

/-! The jumps. -/

/-- An instruction that answers one update of `pc` writes only that. -/
theorem writesOnlyPc_of_setPc {i : Instr} {s : State} {v : Word} (h : exec i s = .next (s.setPc v)) : WritesOnlyPc i s v :=
  ⟨_, h, rfl, unchanged_setPc s v⟩

/-- The largest target of jump-offset is 255 + 4095, so the 16-bit sum is exact (R117). -/
theorem jumpOffset_target_toNat (v : Byte) (a : BitVec 12) : (byteToWord v + address a).toNat = v.toNat + a.toNat := by
  rw [BitVec.toNat_add, byteToWord_toNat, address_toNat]
  omega

theorem address_eq_ofNat (a : BitVec 12) : address a = BitVec.ofNat 16 a.toNat :=
  BitVec.eq_of_toNat_eq (by rw [address_toNat, BitVec.toNat_ofNat]; omega)

/-- Settles O22. -/
theorem jumpsLeaveTheirTarget : Obligations.JumpsLeaveTheirTarget := by
  unfold Obligations.JumpsLeaveTheirTarget
  exact fun a s => ⟨writesOnlyPc_of_setPc ((exec_jump a s).trans (by rw [address_eq_ofNat])),
    ⟨_, exec_jumpOffset a s, jumpOffset_target_toNat (s.reg 0) a, unchanged_setPc s _⟩⟩

/-! The skips. -/

/-- An instruction that skips on `c` leaves `pc` two further on exactly when `p` holds, if `c` decides `p` (R113). -/
theorem writesOnlyPc_of_skipIf {i : Instr} {s : State} {c : Bool} {p : Prop} [Decidable p] (h : exec i s = .next (s.skipIf c))
    (hc : c = true ↔ p) : WritesOnlyPc i s (if p then s.pc + 2 else s.pc) :=
  ⟨_, h, by simp [hc], unchanged_skipIf s c⟩

theorem beq_iff_toNat_eq (a b : Byte) : (a == b) = true ↔ a.toNat = b.toNat := by rw [beq_iff_eq, BitVec.toNat_inj]

theorem bne_iff_toNat_ne (a b : Byte) : (a != b) = true ↔ a.toNat ≠ b.toNat := by rw [bne_iff_ne, Ne, Ne, BitVec.toNat_inj]

/-- Settles O23. -/
theorem compareSkipsAdvanceByTwoMore : Obligations.CompareSkipsAdvanceByTwoMore := by
  unfold Obligations.CompareSkipsAdvanceByTwoMore
  exact fun x y kk z s => ⟨writesOnlyPc_of_skipIf (exec_skipEqImm x kk s) (beq_iff_toNat_eq _ _),
    writesOnlyPc_of_skipIf (exec_skipNeImm x kk s) (bne_iff_toNat_ne _ _),
    writesOnlyPc_of_skipIf (exec_skipEqReg x y z s) (beq_iff_toNat_eq _ _),
    writesOnlyPc_of_skipIf (exec_skipNeReg x y z s) (bne_iff_toNat_ne _ _)⟩

/-- A key skip with a key number in `Vx` tests that key (R160, R161). -/
theorem skipOnKey_of_key {wanted : Bool} {x : RegNum} {s : State} {k : KeyNum} (h : k.val = (s.reg x).toNat) :
    skipOnKey wanted x s = .next (s.skipIf (s.key[k] == wanted)) := by
  simp only [skipOnKey, (keyOperand_eq_some _ k).2 h.symm]

theorem skipOnKey_of_above {wanted : Bool} {x : RegNum} {s : State} (h : 15 < (s.reg x).toNat) :
    skipOnKey wanted x s = .next (s.raise .keyIndexOutOfRange) := by
  simp only [skipOnKey, (keyOperand_eq_none _).2 h]

/-- Settles O34. -/
theorem keySkipsTestTheLevel : Obligations.KeySkipsTestTheLevel := by
  unfold Obligations.KeySkipsTestTheLevel
  exact fun x s => ⟨fun k hk => ⟨writesOnlyPc_of_skipIf (skipOnKey_of_key hk) beq_iff_eq,
      writesOnlyPc_of_skipIf (skipOnKey_of_key hk) beq_iff_eq⟩,
    fun h => ⟨raisesOnly_of_raise (skipOnKey_of_above h), raisesOnly_of_raise (skipOnKey_of_above h)⟩⟩

end Sys2Proof.Machine
end

section
/-! PROOF. The results with a flag, random-and, the index and the transfers (42_arith_logic.md R136 to R143; 43_index_memory.md
R151 to R156). -/

namespace Sys2Proof.Machine

/-! The results with a flag. -/

/-- An instruction that answers a result and a flag leaves the flag last (R143). -/
theorem writesRegThenFlag_of_setResultAndFlag {i : Instr} {s : State} {x : RegNum} {v w : Byte} {c : Bool} {p : Prop}
    (h : exec i s = .next (s.setResultAndFlag x v c)) (hv : v = w) (hc : c = true ↔ p) : WritesRegThenFlag i s x w p := by
  refine ⟨_, h, fun hp => ?_, fun hp => ?_, fun q hq => ?_, unchanged_setResultAndFlag s x v c⟩
  · simp [flagByte, hc.2 hp]
  · simp [flagByte, mt hc.1 hp]
  · simp [hq, hv]

/-- The byte difference, as a difference of numbers modulo 256 (R137, R139). -/
theorem byte_sub_eq_ofNat_mod (a b : Byte) : a - b = BitVec.ofNat 8 ((a.toNat + 256 - b.toNat) % 256) :=
  BitVec.eq_of_toNat_eq (by rw [BitVec.toNat_sub, BitVec.toNat_ofNat]; omega)

theorem carryFlag_iff (a b : Byte) : carryFlag a b = true ↔ 255 < a.toNat + b.toNat := decide_eq_true_iff

theorem greaterFlag_iff (a b : Byte) : greaterFlag a b = true ↔ b.toNat < a.toNat := decide_eq_true_iff

/-- Settles O25. -/
theorem addAndSubtractWithFlag : Obligations.AddAndSubtractWithFlag := by
  unfold Obligations.AddAndSubtractWithFlag
  exact fun x y s => ⟨writesRegThenFlag_of_setResultAndFlag (exec_addReg x y s) (byte_add_eq_ofNat_mod _ _) (carryFlag_iff _ _),
    writesRegThenFlag_of_setResultAndFlag (exec_subReg x y s) (byte_sub_eq_ofNat_mod _ _) (greaterFlag_iff _ _),
    writesRegThenFlag_of_setResultAndFlag (exec_subRegRev x y s) (byte_sub_eq_ofNat_mod _ _) (greaterFlag_iff _ _)⟩

theorem byte_ushiftRight_one (a : Byte) : a >>> 1 = BitVec.ofNat 8 (a.toNat / 2) :=
  BitVec.eq_of_toNat_eq (by rw [BitVec.toNat_ushiftRight, Nat.shiftRight_eq_div_pow, BitVec.toNat_ofNat]; omega)

theorem byte_shiftLeft_one (a : Byte) : a <<< 1 = BitVec.ofNat 8 (2 * a.toNat % 256) :=
  BitVec.eq_of_toNat_eq (by rw [BitVec.toNat_shiftLeft, Nat.shiftLeft_eq, BitVec.toNat_ofNat]; omega)

theorem lowBitFlag_iff (a : Byte) : lowBitFlag a = true ↔ a.toNat % 2 = 1 := by
  simp [lowBitFlag, BitVec.getLsbD, Nat.testBit_zero]

/-- Old bit 7 is set exactly in the bytes of at least 128 (R140). -/
theorem highBitFlag_iff (a : Byte) : highBitFlag a = true ↔ 128 ≤ a.toNat := by
  have h : highBitFlag a = decide (a.toNat / 2 ^ 7 % 2 = 1) := Nat.testBit_eq_decide_div_mod_eq
  rw [h, decide_eq_true_iff]
  omega

/-- Settles O26. -/
theorem shiftsLeaveTheBitShiftedOut : Obligations.ShiftsLeaveTheBitShiftedOut := by
  unfold Obligations.ShiftsLeaveTheBitShiftedOut
  exact fun x y s => ⟨writesRegThenFlag_of_setResultAndFlag (exec_shiftRight x y s) (byte_ushiftRight_one _) (lowBitFlag_iff _),
    writesRegThenFlag_of_setResultAndFlag (exec_shiftLeft x y s) (byte_shiftLeft_one _) (highBitFlag_iff _)⟩

/-! random-and. -/

/-- A masked byte has no bit that the mask lacks. -/
theorem and_and_not_self (r kk : Byte) : r &&& kk &&& ~~~kk = 0 := by
  rw [BitVec.and_assoc, BitVec.and_not_self]
  exact BitVec.and_zero

/-- Settles O27: the byte of the step is the supplied one, or some byte; either is masked. -/
theorem randomAndMasksTheSuppliedByte : Obligations.RandomAndMasksTheSuppliedByte := by
  unfold Obligations.RandomAndMasksTheSuppliedByte
  exact fun x kk s => ⟨fun r => writesOnlyReg_of_setReg (exec_randomAnd x kk (supplyRnd r s)),
    s.rnd &&& kk, and_and_not_self _ _, writesOnlyReg_of_setReg (exec_randomAnd x kk s)⟩

/-! The index. -/

/-- Settles O29. -/
theorem addIndexWrapsAtSixteenBits : Obligations.AddIndexWrapsAtSixteenBits := by
  unfold Obligations.AddIndexWrapsAtSixteenBits
  refine fun x s => ⟨_, exec_addIndex x s, ?_, unchanged_setIndex s _⟩
  rw [State.setIndex_index, BitVec.toNat_add, byteToWord_toNat]

/-! The transfers. -/

theorem exec_storeBcd_of_inRange {x : RegNum} {s : State} (h : s.index.toNat + 2 ≤ 0xFFF) :
    exec (.storeBcd x) s = .next (s.setMem (s.mem.writeBytes s.index.toNat (decimalDigits (s.reg x)))) :=
  State.transfer_of_inRange _ (by omega)

theorem exec_storeRegs_of_inRange {x : RegNum} {s : State} (h : s.index.toNat + x.val ≤ 0xFFF) :
    exec (.storeRegs x) s = .next (s.setMem (s.mem.writeBytes s.index.toNat (registersTo s.x x))) :=
  State.transfer_of_inRange _ (by omega)

theorem exec_loadRegs_of_inRange {x : RegNum} {s : State} (h : s.index.toNat + x.val ≤ 0xFFF) :
    exec (.loadRegs x) s = .next (s.setRegs (loadRegistersTo s.x s.mem s.index.toNat x)) :=
  State.transfer_of_inRange _ (by omega)

/-- A byte has at most three decimal digits, and each fits its byte (R153). -/
theorem decimalDigits_toNat (v : Byte) : (decimalDigits v)[0].toNat = v.toNat / 100 ∧ (decimalDigits v)[1].toNat = v.toNat / 10 % 10 ∧
    (decimalDigits v)[2].toNat = v.toNat % 10 := by
  have := v.isLt
  simp only [decimalDigits, List.getElem_cons_zero, List.getElem_cons_succ, BitVec.toNat_ofNat]
  omega

/-- After a store-bcd that fits, the byte at `index + j` is digit `j` (R153). -/
theorem read_storeBcd {v : Byte} {s : State} (hw : s.mem.wf = true) (h : s.index.toNat + 2 ≤ 0xFFF) (j : Nat) (hj : j < 3) :
    (s.mem.writeBytes s.index.toNat (decimalDigits v)).read (s.index.toNat + j) = (decimalDigits v)[j] :=
  Memory.read_writeBytes_inside s.mem _ j (decimalDigits v) hw (by rw [decimalDigits_length]; omega) hj

/-- Settles O30. -/
theorem storeBcdStoresThreeDigits : Obligations.StoreBcdStoresThreeDigits := by
  unfold Obligations.StoreBcdStoresThreeDigits
  intro x s hw
  obtain ⟨hundreds, tens, ones⟩ := decimalDigits_toNat (s.reg x)
  exact ⟨fun h => ⟨_, exec_storeBcd_of_inRange h, (congrArg BitVec.toNat (read_storeBcd hw h 0 (by decide))).trans hundreds,
      (congrArg BitVec.toNat (read_storeBcd hw h 1 (by decide))).trans tens,
      (congrArg BitVec.toNat (read_storeBcd hw h 2 (by decide))).trans ones,
      fun a ha => Memory.read_writeBytes_outside s.mem _ a _ (by rw [decimalDigits_length]; omega), unchanged_setMem s _⟩,
    fun h => raisesOnly_of_transfer rfl (by decide) (by omega)⟩

/-- After a store-regs that fits, the byte at `index + q` is register `q` (R154). -/
theorem read_storeRegs {x q : RegNum} {s : State} (hw : s.mem.wf = true) (h : s.index.toNat + x.val ≤ 0xFFF) (hq : q ≤ x) :
    (s.mem.writeBytes s.index.toNat (registersTo s.x x)).read (s.index.toNat + q.val) = s.reg q := by
  have hq : q.val ≤ x.val := hq
  rw [Memory.read_writeBytes_inside s.mem _ q.val _ hw (by rw [registersTo_length]; omega) (by rw [registersTo_length]; omega),
    registersTo_getElem]
  rfl

/-- Settles O31. -/
theorem storeRegsStoresTheRange : Obligations.StoreRegsStoresTheRange := by
  unfold Obligations.StoreRegsStoresTheRange
  exact fun x s hw => ⟨fun h => ⟨_, exec_storeRegs_of_inRange h, fun q hq => read_storeRegs hw h hq,
      fun a ha => Memory.read_writeBytes_outside s.mem _ a _ (by rw [registersTo_length]; omega), unchanged_setMem s _⟩,
    fun h => raisesOnly_of_transfer rfl (Nat.succ_pos _) (by omega)⟩

/-- A load of registers, register by register (R155). -/
theorem setRegs_loadRegistersTo_reg (s : State) (m : Memory) (a : Nat) (x q : RegNum) :
    (s.setRegs (loadRegistersTo s.x m a x)).reg q = if q ≤ x then m.read (a + q.val) else s.reg q :=
  loadRegistersTo_getElem s.x m a x q

/-- Settles O32. -/
theorem loadRegsLoadsTheRange : Obligations.LoadRegsLoadsTheRange := by
  unfold Obligations.LoadRegsLoadsTheRange
  exact fun x s => ⟨fun h => ⟨_, exec_loadRegs_of_inRange h, fun q hq => (setRegs_loadRegistersTo_reg s _ _ x q).trans (if_pos hq),
      fun q hq => (setRegs_loadRegistersTo_reg s _ _ x q).trans (if_neg (not_le_of_gt hq)), unchanged_setRegs s _⟩,
    fun h => raisesOnly_of_transfer rfl (Nat.succ_pos _) (by omega)⟩

/-- Settles O33: the load reads the bytes that the store wrote. -/
theorem loadRegsRestoresWhatStoreRegsStored : Obligations.LoadRegsRestoresWhatStoreRegsStored := by
  unfold Obligations.LoadRegsRestoresWhatStoreRegsStored
  refine fun x regs s hw h => ⟨_, _, exec_storeRegs_of_inRange h, exec_loadRegs_of_inRange h, fun q hq => ?_, fun q hq => ?_⟩
  · exact ((setRegs_loadRegistersTo_reg _ _ _ x q).trans (if_pos hq)).trans (read_storeRegs hw h hq)
  · exact (setRegs_loadRegistersTo_reg _ _ _ x q).trans (if_neg (not_le_of_gt hq))

end Sys2Proof.Machine
end

section
/-! PROOF. The timer moves and wait-key (44_timer_input.md R162 to R165; 30_encoding.md R72). -/

namespace Sys2Proof.Machine

/-! The timer moves. -/

/-- A step that executes an instruction which completes in `s1` ends in `s1` ticked. -/
theorem step_of_completed {s s1 : State} {i : Instr} (h : AboutToExecute s i) (he : exec i (s.latch s.fetchWord) = .next s1)
    (hr : s1.runState = .running) : step s = .next s1.tick.nextRnd := by
  rw [step_of_aboutToExecute h he, endStep_of_running s hr]

/-- Settles O35: each move is one update, and the tick of the same step counts down what it left. -/
theorem timerMovesCopyTheByte : Obligations.TimerMovesCopyTheByte := by
  unfold Obligations.TimerMovesCopyTheByte
  refine fun x s => ⟨writesOnlyReg_of_setReg (exec_getDelay x s), ⟨_, exec_setDelay x s, rfl, unchanged_setDt s _⟩,
    ⟨_, exec_setSound x s, rfl, unchanged_setSt s _⟩, fun h => ?_, fun h => ?_, fun h => ?_⟩
  · exact ⟨_, step_of_completed h (exec_getDelay x _) h.1, by simp, countDown_toNat s.dt⟩
  · exact ⟨_, step_of_completed h (exec_setDelay x _) h.1, countDown_toNat (s.reg x)⟩
  · exact ⟨_, step_of_completed h (exec_setSound x _) h.1, countDown_toNat (s.reg x)⟩

/-! wait-key. -/

/-- The scan answers the lowest pressed key up to its bound (R163). -/
theorem scanKeys_of_lowest {key : Vector Bool 16} {last k : KeyNum} (hk : k ≤ last) (hp : key[k] = true)
    (hl : ∀ j : KeyNum, j < k → key[j] = false) : scanKeys key last = some k := by
  cases h : scanKeys key last with
  | none => simp [scanKeys_eq_none.1 h k hk] at hp
  | some k' =>
    obtain ⟨-, hp', hl'⟩ := scanKeys_eq_some h
    rcases lt_trichotomy k k' with hlt | rfl | hlt
    · simp [hl' k hlt] at hp
    · rfl
    · simp [hl k' hlt] at hp'

theorem exec_waitKey (x : RegNum) (s : State) : exec (.waitKey x) s = waitKeyUpTo Config.waitKeyLast x s := rfl

theorem le_waitKeyLast_iff (k : KeyNum) : k ≤ Config.waitKeyLast ↔ k.val ≤ 0xE := Iff.rfl

theorem waitKeyUpTo_of_lowest {last k : KeyNum} {x : RegNum} {s : State} (hk : k ≤ last) (hp : s.key[k] = true)
    (hl : ∀ j : KeyNum, j < k → s.key[j] = false) : waitKeyUpTo last x s = .next (s.setReg x (keyByte k)) := by
  simp only [waitKeyUpTo, scanKeys_of_lowest hk hp hl]

theorem waitKeyUpTo_of_none {last : KeyNum} {x : RegNum} {s : State} (h : ∀ k : KeyNum, k ≤ last → s.key[k] = false) :
    waitKeyUpTo last x s = .next (s.setPc (s.pc - 2)) := by
  simp only [waitKeyUpTo, scanKeys_eq_none.2 h]

/-- Settles O54. -/
theorem waitKeyScansUpToItsParameter : Obligations.WaitKeyScansUpToItsParameter := by
  unfold Obligations.WaitKeyScansUpToItsParameter
  exact fun last x s => ⟨fun k hk hp hl => ⟨_, waitKeyUpTo_of_lowest hk hp hl, fun q => State.setReg_reg s x q _, unchanged_setReg s x _⟩,
    fun h => ⟨_, waitKeyUpTo_of_none h, rfl, unchanged_setPc s _⟩⟩

/-- Settles O36: wait-key is the scan up to the default, key 0xE. -/
theorem waitKeyTakesTheLowestKeyOrRewinds : Obligations.WaitKeyTakesTheLowestKeyOrRewinds := by
  unfold Obligations.WaitKeyTakesTheLowestKeyOrRewinds
  refine fun x s => ⟨fun k hk hp hl => writesOnlyReg_of_setReg (v := keyByte k) ?_, fun h => writesOnlyPc_of_setPc ?_⟩
  · exact (exec_waitKey x s).trans (waitKeyUpTo_of_lowest ((le_waitKeyLast_iff k).2 hk) hp hl)
  · exact (exec_waitKey x s).trans (waitKeyUpTo_of_none fun k hk => h k ((le_waitKeyLast_iff k).1 hk))

/-- A word with its low fifteen bits clear presses none of the keys 0..0xE. -/
theorem setKeys_unscanned {k : BitVec 16} (hk : k.toNat % 0x8000 = 0) (s : State) (j : KeyNum) (hj : j ≤ Config.waitKeyLast) :
    (setKeys k s).key[j] = false := by
  have hj : j.val < 15 := Nat.lt_succ_of_le ((le_waitKeyLast_iff j).1 hj)
  have hbit : (k.toNat % 2 ^ 15).testBit j.val = k.toNat.testBit j.val := by
    rw [Nat.testBit_mod_two_pow, decide_eq_true hj, Bool.true_and]
  rw [setKeys_getElem, BitVec.getLsbD, ← hbit]
  exact hk ▸ Nat.zero_testBit j.val

/-- Which instruction a machine stands at depends on memory, `pc` and the run state alone. -/
theorem AboutToExecute.congr {s t : State} {i : Instr} (h : AboutToExecute s i) (hm : t.mem = s.mem) (hp : t.pc = s.pc)
    (hr : t.runState = s.runState) : AboutToExecute t i := by
  simpa only [AboutToExecute, State.fetchWord, hm, hp, hr] using h

theorem AboutToExecute.host_inputs {s : State} {i : Instr} (h : AboutToExecute s i) (k : BitVec 16) (r : Byte) :
    AboutToExecute (supplyRnd r (setKeys k s)) i := h.congr (by simp) (by simp) (by simp)

/-- The state after a step of waiting: latched, taken back to the wait-key, ticked (R163, R72 (c)). -/
def afterWait (s : State) : State := ((s.latch s.fetchWord).setPc (s.pc + 2 - 2)).tick.nextRnd

theorem step_waiting {s : State} {x : RegNum} (h : AboutToExecute s (.waitKey x))
    (hkeys : ∀ k : KeyNum, k ≤ Config.waitKeyLast → s.key[k] = false) : step s = .next (afterWait s) :=
  step_of_completed h ((exec_waitKey x _).trans (waitKeyUpTo_of_none hkeys)) h.1

theorem afterWait_pc (s : State) : (afterWait s).pc = s.pc := BitVec.add_sub_cancel s.pc 2

/-- A step of waiting keeps all but the timers, the latched word and the model's random input. -/
theorem unchanged_afterWait (s : State) : UnchangedExcept [.ir, .dt, .st, .rndIn, .draws] s (afterWait s) := by
  intro c hc
  cases c with
  | pc => exact afterWait_pc s
  | _ => simp_all [Component.same, afterWait]

theorem AboutToExecute.afterWait {s : State} {i : Instr} (h : AboutToExecute s i) : AboutToExecute (afterWait s) i :=
  h.congr rfl (afterWait_pc s) rfl

theorem afterWait_dt_toNat (s : State) : (afterWait s).dt.toNat = s.dt.toNat - 1 := countDown_toNat s.dt
theorem afterWait_st_toNat (s : State) : (afterWait s).st.toNat = s.st.toNat - 1 := countDown_toNat s.st

/-- A turn with no scanned key leaves the machine at the same wait-key with both timers one lower. -/
theorem turn_waiting {k : BitVec 16} (r : Byte) {s : State} {x : RegNum} (h : AboutToExecute s (.waitKey x))
    (hk : k.toNat % 0x8000 = 0) : ∃ t, turn k r s = .next t ∧ AboutToExecute t (.waitKey x) ∧ t.dt.toNat = s.dt.toNat - 1 ∧
      t.st.toNat = s.st.toNat - 1 ∧ UnchangedExcept [.ir, .dt, .st, .key, .rndIn, .draws] s t := by
  have h1 := h.host_inputs k r
  refine ⟨_, step_waiting h1 (setKeys_unscanned hk s), h1.afterWait, ?_, ?_, ?_⟩
  · rw [afterWait_dt_toNat, supplyRnd_dt, setKeys_dt]
  · rw [afterWait_st_toNat, supplyRnd_st, setKeys_st]
  · exact ((unchanged_host_inputs k r s).mono (by simp)).trans ((unchanged_afterWait _).mono (by simp))

/-- Settles O37, by induction on the turns. -/
theorem waitKeyPollsUntilAKeyIsPressed : Obligations.WaitKeyPollsUntilAKeyIsPressed := by
  unfold Obligations.WaitKeyPollsUntilAKeyIsPressed
  intro turns x
  induction turns with
  | nil => exact fun s h _ => ⟨s, rfl, h, rfl, rfl, .rfl_of _ s⟩
  | cons kr rest ih =>
    obtain ⟨k, r⟩ := kr
    intro s h hkeys
    obtain ⟨hk, hrest⟩ := List.forall_mem_cons.1 hkeys
    obtain ⟨s1, hturn, h1, hdt1, hst1, hu1⟩ := turn_waiting r h hk
    obtain ⟨t, ht, hat, hdt, hst, hu⟩ := ih s1 h1 hrest
    refine ⟨t, (runTurns_cons hturn).trans ht, hat, ?_, ?_, hu1.trans hu⟩
    · rw [hdt, hdt1, List.length_cons]; omega
    · rw [hst, hst1, List.length_cons]; omega

end Sys2Proof.Machine
end

section
/-! PROOF. What a completed step may change: each item by its writers, the registers, the program counter (10_state.md R20 to R26). -/

namespace Sys2Proof.Machine

/-! The frame of a completed step. -/

theorem unchanged_latch (s : State) (w : Word) : UnchangedExcept [.ir, .pc] s (s.latch w) := by
  intro c hc; cases c <;> simp_all [Component.same]

theorem unchanged_tick_nextRnd (s : State) : UnchangedExcept [.dt, .st, .rndIn, .draws] s s.tick.nextRnd := by
  intro c hc; cases c <;> simp_all [Component.same]

/-- Settles O39: the cycle's latch, the instruction within its frame, the cycle's end. -/
theorem eachItemChangesOnlyByItsWriters : Obligations.EachItemChangesOnlyByItsWriters := by
  unfold Obligations.EachItemChangesOnlyByItsWriters
  intro s t i h hs ht
  rcases step_aboutToExecute_cases h hs with ⟨s1, -, ⟨hu, -, -⟩, -, -, rfl⟩ | ⟨-, rfl⟩
  · have hbegin := (unchanged_latch s s.fetchWord).mono (l' := writtenBy i ++ writtenByCycle) (by simp [writtenByCycle])
    have hend := (unchanged_tick_nextRnd s1).mono (l' := writtenBy i ++ writtenByCycle) (by simp [writtenByCycle])
    exact (hbegin.trans (hu.mono fun c hc => List.mem_append_left _ hc)).trans hend
  · simp at ht

/-! The registers. -/

/-- The six flag writers leave 0 or 1 in `x[15]`, whatever their destination (R24, R143). -/
theorem exec_flag {i : Instr} {s t : State} (hi : ∃ x y, i = .addReg x y ∨ i = .subReg x y ∨ i = .shiftRight x y ∨ i = .subRegRev x y ∨
    i = .shiftLeft x y ∨ ∃ n, i = .draw x y n) (h : exec i s = .next t) (hf : faultDue i s = .noFault) : t.reg 15 = 0 ∨ t.reg 15 = 1 := by
  have flagged : ∀ (r : RegNum) (v : Byte) (b : Bool),
      (s.setResultAndFlag r v b).reg 15 = 0 ∨ (s.setResultAndFlag r v b).reg 15 = 1 := fun r v b => by
    rw [State.setResultAndFlag_reg, if_pos rfl]; exact flagByte_eq b
  obtain ⟨x, y, rfl | rfl | rfl | rfl | rfl | ⟨n, rfl⟩⟩ := hi
  case inr.inr.inr.inr.inr =>
    rcases State.transfer_cases h with ⟨-, rfl⟩ | ⟨h0, h1, -⟩
    · rw [State.setFlag_reg, if_pos rfl]; exact flagByte_eq _
    · rw [faultDue_draw, if_pos ⟨h0, h1⟩] at hf; cases hf
  all_goals
    injection h with h
    subst h
    exact flagged _ _ _

/-- Settles O40. -/
theorem registersChangeOnlyAsListed : Obligations.RegistersChangeOnlyAsListed := by
  unfold Obligations.RegistersChangeOnlyAsListed
  intro s t i h hs
  rcases step_aboutToExecute_cases h hs with ⟨s1, he, ⟨-, hregs, -⟩, -, hf, rfl⟩ | ⟨-, rfl⟩
  · exact ⟨hregs, fun _ hi => exec_flag (t := s1) hi he (by rwa [faultDue_latch])⟩
  · exact ⟨fun _ _ => rfl, fun ht => by simp at ht⟩

/-! The program counter. -/

/-- Where an instruction that completes in `s` may leave `pc`, which stands advanced before it runs (R26, R71). -/
def PcTarget (i : Instr) (s : State) (v : Word) : Prop :=
  match i with
  | .jump a => v = address a
  | .call a => v = address a
  | .jumpOffset a => v = byteToWord (s.reg 0) + address a
  | .ret _ => ∃ k : Fin 16, k.val + 1 = s.sp.val ∧ v = s.stack[k]
  | .skipEqImm _ _ => v = s.pc ∨ v = s.pc + 2
  | .skipNeImm _ _ => v = s.pc ∨ v = s.pc + 2
  | .skipEqReg _ _ _ => v = s.pc ∨ v = s.pc + 2
  | .skipNeReg _ _ _ => v = s.pc ∨ v = s.pc + 2
  | .skipIfKey _ => v = s.pc ∨ v = s.pc + 2
  | .skipIfNotKey _ => v = s.pc ∨ v = s.pc + 2
  | .waitKey _ => v = s.pc - 2 ∨ v = s.pc
  | _ => v = s.pc

theorem skipIf_pc_cases (s : State) (c : Bool) : (s.skipIf c).pc = s.pc ∨ (s.skipIf c).pc = s.pc + 2 := by
  cases c
  · exact .inl rfl
  · exact .inr rfl

theorem skipOnKey_pc {wanted : Bool} {x : RegNum} {s t : State} (h : skipOnKey wanted x s = .next t) : t.pc = s.pc ∨ t.pc = s.pc + 2 := by
  rcases skipOnKey_cases h with ⟨k, -, rfl⟩ | ⟨-, rfl⟩
  · exact skipIf_pc_cases s _
  · exact .inl rfl

theorem waitKeyUpTo_pc {last : KeyNum} {x : RegNum} {s t : State} (h : waitKeyUpTo last x s = .next t) : t.pc = s.pc - 2 ∨ t.pc = s.pc := by
  rcases waitKeyUpTo_cases h with ⟨k, -, -, -, rfl⟩ | ⟨-, rfl⟩
  · exact .inr rfl
  · exact .inl rfl

/-- An instruction that completes leaves `pc` at its target; those that do not list `pc` leave it alone. -/
theorem exec_pc {i : Instr} {s t : State} (h : exec i s = .next t) (hc : Completed i s t) (hf : faultDue i s = .noFault) :
    PcTarget i s t.pc := by
  cases i with
  | jump | jumpOffset => injection h with h; subst h; rfl
  | skipEqImm | skipNeImm | skipEqReg | skipNeReg => injection h with h; subst h; exact skipIf_pc_cases s _
  | skipIfKey | skipIfNotKey => exact skipOnKey_pc h
  | waitKey => exact waitKeyUpTo_pc h
  | call a =>
    rcases exec_call_cases h with ⟨u, -, rfl⟩ | ⟨hsp, -⟩
    · rfl
    · simp [faultDue, hsp] at hf
  | ret z =>
    rcases exec_ret_cases h with hpop | ⟨hsp, -⟩
    · obtain ⟨hsp, rfl⟩ := State.popToPc?_eq_some hpop
      exact ⟨⟨s.sp.val - 1, by omega⟩, Nat.sub_add_cancel hsp, rfl⟩
    · simp [faultDue, hsp] at hf
  | _ => exact hc.1 .pc (by simp [writtenBy])

/-- Settles O41: the target of the instruction, counted from the advanced `pc`, which is at most 4096, so that no sum wraps. -/
theorem programCounterAfterACompletedStep : Obligations.ProgramCounterAfterACompletedStep := by
  unfold Obligations.ProgramCounterAfterACompletedStep
  intro s t i h hs ht
  obtain ⟨-, hle, -, -⟩ := id h
  rcases step_aboutToExecute_cases h hs with ⟨s1, he, hc, -, hf, rfl⟩ | ⟨-, rfl⟩
  · have hpc : PcTarget i (s.latch s.fetchWord) s1.pc := exec_pc he hc (by rwa [faultDue_latch])
    have hadv : (s.pc + 2).toNat = s.pc.toNat + 2 := by bv_omega
    have hskip : ∀ v : Word, v = s.pc + 2 ∨ v = s.pc + 2 + 2 → v.toNat = s.pc.toNat + 2 ∨ v.toNat = s.pc.toNat + 4 := by
      intro v hv; bv_omega
    have hwait : ∀ v : Word, v = s.pc + 2 - 2 ∨ v = s.pc + 2 → v.toNat = s.pc.toNat ∨ v.toNat = s.pc.toNat + 2 := by
      intro v hv; bv_omega
    cases i with
    | jump a | call a => exact (congrArg BitVec.toNat hpc).trans (address_toNat a)
    | jumpOffset a => exact (congrArg BitVec.toNat hpc).trans (jumpOffset_target_toNat (s.reg 0) a)
    | ret => exact hpc
    | skipEqImm | skipNeImm | skipEqReg | skipNeReg | skipIfKey | skipIfNotKey => exact hskip _ hpc
    | waitKey => exact hwait _ hpc
    | _ => exact (congrArg BitVec.toNat hpc).trans hadv
  · simp at ht

end Sys2Proof.Machine
end

section
/-! PROOF. What cannot be observed (10_state.md R27, R28, R33): a change of the state that the shared operations neither see nor
disturb passes through every instruction that has no operation of its own. -/

namespace Sys2Proof.Machine

/-- A change of the state that leaves alone every item the shared operations read, and commutes with their updates. -/
structure Unseen (f : State → State) : Prop where
  mem (s) : (f s).mem = s.mem
  x (s) : (f s).x = s.x
  index (s) : (f s).index = s.index
  pc (s) : (f s).pc = s.pc
  sp (s) : (f s).sp = s.sp
  dt (s) : (f s).dt = s.dt
  fb (s) : (f s).fb = s.fb
  key (s) : (f s).key = s.key
  runState (s) : (f s).runState = s.runState
  setMem (s m) : (f s).setMem m = f (s.setMem m)
  setRegs (s v) : (f s).setRegs v = f (s.setRegs v)
  setIndex (s v) : (f s).setIndex v = f (s.setIndex v)
  setPc (s v) : (f s).setPc v = f (s.setPc v)
  setDt (s v) : (f s).setDt v = f (s.setDt v)
  setFb (s v) : (f s).setFb v = f (s.setFb v)
  latch (s w) : (f s).latch w = f (s.latch w)
  raise (s r) : (f s).raise r = f (s.raise r)

namespace Unseen

variable {f : State → State} (hf : Unseen f)
include hf

theorem reg (s : State) (r : RegNum) : (f s).reg r = s.reg r := by rw [State.reg, hf.x]; rfl

theorem setReg (s : State) (r : RegNum) (v : Byte) : (f s).setReg r v = f (s.setReg r v) :=
  (congrArg (fun x : Vector Byte 16 => (f s).setRegs (x.set r v)) (hf.x s)).trans (hf.setRegs s _)

theorem setFlag (s : State) (b : Bool) : (f s).setFlag b = f (s.setFlag b) := hf.setReg s 15 _

theorem setResultAndFlag (s : State) (r : RegNum) (v : Byte) (b : Bool) :
    (f s).setResultAndFlag r v b = f (s.setResultAndFlag r v b) := by
  rw [State.setResultAndFlag, hf.setReg, hf.setFlag]; rfl

theorem skipIf (s : State) (c : Bool) : (f s).skipIf c = f (s.skipIf c) := by
  cases c
  · rfl
  · rw [State.skipIf_true, hf.pc, hf.setPc]; rfl

theorem fetchWord (s : State) : (f s).fetchWord = s.fetchWord := by rw [State.fetchWord, hf.mem, hf.pc]; rfl

theorem fetchable (s : State) : (f s).fetchable = s.fetchable := by rw [State.fetchable, hf.pc]; rfl

/-- A transfer to a state seen through `f` is the same transfer seen through `f`. -/
theorem transfer {s t u : State} {n : Nat} (h : s.transfer n t = .next u) : (f s).transfer n (f t) = .next (f u) := by
  rcases State.transfer_cases h with ⟨hr, rfl⟩ | ⟨h0, h1, rfl⟩
  · exact State.transfer_of_inRange _ (by rwa [hf.index])
  · rw [State.transfer_of_outside _ h0 (by rwa [hf.index]), hf.raise]

theorem skipOnKey {wanted : Bool} {x : RegNum} {s t : State} (h : skipOnKey wanted x s = .next t) :
    Machine.skipOnKey wanted x (f s) = .next (f t) := by
  rcases skipOnKey_cases h with ⟨k, hk, rfl⟩ | ⟨hk, rfl⟩
  · rw [skipOnKey_of_key (k := k) (by rw [hf.reg, hk]), hf.key, hf.skipIf]
  · rw [skipOnKey_of_above (by rwa [hf.reg]), hf.raise]

theorem waitKeyUpTo {last : KeyNum} {x : RegNum} {s t : State} (h : waitKeyUpTo last x s = .next t) :
    Machine.waitKeyUpTo last x (f s) = .next (f t) := by
  rcases waitKeyUpTo_cases h with ⟨k, hk, hp, hl, rfl⟩ | ⟨hn, rfl⟩
  · rw [waitKeyUpTo_of_lowest hk (by rwa [hf.key]) (by rwa [hf.key]), hf.setReg]
  · rw [waitKeyUpTo_of_none (by rwa [hf.key]), hf.pc, hf.setPc]

end Unseen

/-- The four instructions with an operation of their own: on the stack, on the sound timer, on the random byte. -/
def hasOwnOperation : Instr → Prop
  | .ret _ => True
  | .call _ => True
  | .setSound _ => True
  | .randomAnd _ _ => True
  | _ => False

/-- Every other instruction passes an unseen change through. -/
theorem Unseen.exec {f : State → State} (hf : Unseen f) {i : Instr} (hi : ¬ hasOwnOperation i) {s t : State}
    (h : exec i s = .next t) : Machine.exec i (f s) = .next (f t) := by
  cases i with
  | ret | call | setSound | randomAnd => exact absurd trivial hi
  | skipIfKey x | skipIfNotKey x => exact hf.skipOnKey h
  | waitKey x => exact hf.waitKeyUpTo h
  | draw x y n =>
    refine Eq.trans ?_ (hf.transfer h)
    simp only [Machine.exec, execDraw, hf.mem, hf.index, hf.reg, hf.fb, hf.setFb, hf.setFlag]
  | storeBcd x =>
    refine Eq.trans ?_ (hf.transfer h)
    simp only [Machine.exec, execStoreBcd, hf.mem, hf.index, hf.reg, hf.setMem]
  | storeRegs x =>
    refine Eq.trans ?_ (hf.transfer h)
    simp only [Machine.exec, execStoreRegs, hf.mem, hf.index, hf.x, hf.setMem]
  | loadRegs x =>
    refine Eq.trans ?_ (hf.transfer h)
    simp only [Machine.exec, execLoadRegs, hf.mem, hf.index, hf.x, hf.setRegs]
  | undefinedNop w => injection h with h; subst h; rfl
  | clearDisplay => injection h with h; subst h; rw [exec_clearDisplay, hf.setFb]
  | jump => injection h with h; subst h; rw [exec_jump, hf.setPc]
  | jumpOffset => injection h with h; subst h; rw [exec_jumpOffset, hf.reg, hf.setPc]
  | skipEqImm => injection h with h; subst h; rw [exec_skipEqImm, hf.reg, hf.skipIf]
  | skipNeImm => injection h with h; subst h; rw [exec_skipNeImm, hf.reg, hf.skipIf]
  | skipEqReg => injection h with h; subst h; rw [exec_skipEqReg, hf.reg, hf.reg, hf.skipIf]
  | skipNeReg => injection h with h; subst h; rw [exec_skipNeReg, hf.reg, hf.reg, hf.skipIf]
  | setIndex => injection h with h; subst h; rw [exec_setIndex, hf.setIndex]
  | addIndex => injection h with h; subst h; rw [exec_addIndex, hf.index, hf.reg, hf.setIndex]
  | fontChar => injection h with h; subst h; rw [exec_fontChar, hf.reg, hf.setIndex]
  | getDelay => injection h with h; subst h; rw [exec_getDelay, hf.dt, hf.setReg]
  | setDelay => injection h with h; subst h; rw [exec_setDelay, hf.reg, hf.setDt]
  | addReg | subReg | subRegRev | shiftRight | shiftLeft =>
    injection h with h; subst h
    simp only [Machine.exec, execAddReg, execSubReg, execSubRegRev, execShiftRight, execShiftLeft, hf.reg, hf.setResultAndFlag]
  | _ =>
    injection h with h; subst h
    simp only [Machine.exec, execLoadImm, execAddImm, execCopy, execOrReg, execAndReg, execXorReg, hf.reg, hf.setReg]

/-! The step around it. -/

/-- An instruction whose fault is due ends the step in that fault. -/
theorem step_of_faultDue {s : State} {i : Instr} (h : AboutToExecute s i) (hd : faultDue i s ≠ .noFault) :
    step s = .next (s.raise (faultDue i s)) := by
  obtain ⟨t, ht⟩ := step_answers s
  rcases step_aboutToExecute_cases h ht with ⟨-, -, -, -, hn, -⟩ | ⟨-, rfl⟩
  · exact absurd hn hd
  · exact ht

namespace Unseen

variable {f : State → State} (hf : Unseen f)
include hf

theorem faultDue (i : Instr) (s : State) : Machine.faultDue i (f s) = Machine.faultDue i s := by
  cases i <;> simp only [Machine.faultDue, hf.sp, hf.reg, hf.index]

theorem aboutToExecute {s : State} {i : Instr} (h : AboutToExecute s i) : AboutToExecute (f s) i :=
  h.congr (hf.mem s) (hf.pc s) (hf.runState s)

/-- A step that ends FAULTED passes an unseen change through; one that completes runs the same instruction in the changed state. -/
theorem step_cases {s t : State} (h : step s = .next t) :
    (step (f s) = .next (f t) ∧ t.runState = .faulted ∧ UnchangedExcept [.runState, .faultReason] s t) ∨
    ∃ i s1 w, Machine.faultDue i (s.latch w) = .noFault ∧ Machine.exec i (s.latch w) = .next s1 ∧ Completed i (s.latch w) s1 ∧
      AboutToExecute s i ∧ t = s1.tick.nextRnd ∧
      ∀ s1', Machine.exec i (f (s.latch w)) = .next s1' → s1'.runState = .running → step (f s) = .next s1'.tick.nextRnd := by
  cases hr : s.runState with
  | faulted =>
    rw [step_of_faulted hr] at h
    injection h with h
    subst h
    exact .inl ⟨step_of_faulted ((hf.runState s).trans hr), hr, .rfl_of _ s⟩
  | running =>
    cases hfetch : s.fetchable with
    | false =>
      rw [step_of_bad_pc hr hfetch] at h
      injection h with h
      subst h
      refine .inl ⟨?_, rfl, unchanged_raise s _⟩
      rw [step_of_bad_pc ((hf.runState s).trans hr) ((hf.fetchable s).trans hfetch), hf.raise]
    | true =>
      have hat := aboutToExecute_of_fetchable hr hfetch
      rcases step_aboutToExecute_cases hat h with ⟨s1, he, hc, -, hd, rfl⟩ | ⟨hd, rfl⟩
      · refine .inr ⟨_, s1, s.fetchWord, by rwa [faultDue_latch], he, hc, hat, rfl, fun s1' he' hr' => ?_⟩
        exact step_of_completed (hf.aboutToExecute hat) (by rwa [hf.fetchWord, hf.latch]) hr'
      · refine .inl ⟨?_, rfl, unchanged_raise s _⟩
        rw [step_of_faultDue (hf.aboutToExecute hat) (by rwa [hf.faultDue]), hf.faultDue, hf.raise]

end Unseen

theorem sp_pos_of_ret {z : BitVec 8} {s : State} (h : faultDue (.ret z) s = .noFault) : 0 < s.sp.val := by
  by_contra hn
  simp [faultDue, Nat.eq_zero_of_not_pos hn] at h

theorem sp_lt_of_call {a : BitVec 12} {s : State} (h : faultDue (.call a) s = .noFault) : s.sp.val < 16 := by
  by_contra hn
  simp [faultDue, (by omega : s.sp.val = 16)] at h

/-! The stack slots at and above `sp` (R27). -/

/-- The state with other stack contents. -/
def withStack (other : Vector Word 16) (s : State) : State := { s with stack := other }

theorem unseen_withStack (other : Vector Word 16) : Unseen (withStack other) := by constructor <;> intros <;> rfl

/-- Two stacks agree below `n`, on the return addresses held. -/
def AgreeBelow (n : Nat) (a b : Vector Word 16) : Prop := ∀ j : Fin 16, j.val < n → a[j] = b[j]

/-- An instruction that writes neither the stack nor `sp` keeps the agreement. -/
theorem AgreeBelow.completed {i : Instr} {s t : State} {other : Vector Word 16} (h : AgreeBelow s.sp.val other s.stack)
    (hc : Completed i s t) (hsp : Component.sp ∉ writtenBy i) (hstack : Component.stack ∉ writtenBy i) :
    AgreeBelow t.sp.val other t.stack := by
  have h1 : t.sp = s.sp := hc.1 .sp hsp
  have h2 : t.stack = s.stack := hc.1 .stack hstack
  rwa [h1, h2]

/-- Pushing the same value keeps the agreement, one slot further. -/
theorem AgreeBelow.push {n : Nat} {a b : Vector Word 16} (h : AgreeBelow n a b) (hn : n < 16) (v : Word) :
    AgreeBelow (n + 1) (a.set n v hn) (b.set n v hn) := by
  intro j hj
  simp only [Fin.getElem_fin, Vector.getElem_set]
  split
  · rfl
  · exact h j (by omega)

/-- An instruction that completes does the same with other contents above the addresses held. -/
theorem exec_withStack {i : Instr} {s t : State} {other : Vector Word 16} (h : AgreeBelow s.sp.val other s.stack)
    (he : exec i s = .next t) (hc : Completed i s t) (hd : faultDue i s = .noFault) :
    ∃ left, exec i (withStack other s) = .next (withStack left t) ∧ AgreeBelow t.sp.val left t.stack := by
  cases i with
  | ret z =>
    have hsp := sp_pos_of_ret hd
    rw [exec_ret_of_pos z hsp] at he
    injection he with he
    subst he
    have htop : other[s.sp.val - 1] = s.stack[s.sp.val - 1] := h ⟨s.sp.val - 1, by omega⟩ (Nat.sub_one_lt_of_lt hsp)
    refine ⟨other, (exec_ret_of_pos z (s := withStack other s) hsp).trans ?_, fun j hj => h j (Nat.lt_of_lt_of_le hj (Nat.sub_le _ _))⟩
    simp only [withStack, htop]
  | call a =>
    have hsp := sp_lt_of_call hd
    rw [exec_call_of_lt a hsp] at he
    injection he with he
    subst he
    exact ⟨_, exec_call_of_lt a (s := withStack other s) hsp, h.push hsp s.pc⟩
  | setSound x | randomAnd x k =>
    injection he with he
    subst he
    exact ⟨other, rfl, h⟩
  | _ =>
    exact ⟨other, (unseen_withStack other).exec id he, h.completed hc (by simp [writtenBy]) (by simp [writtenBy])⟩

/-- Settles O43: a fault keeps the stack, and an instruction that completes keeps the agreement below `sp`. -/
theorem staleStackSlotsAreUnobservable : Obligations.StaleStackSlotsAreUnobservable := by
  unfold Obligations.StaleStackSlotsAreUnobservable
  intro s t other h hs
  rcases (unseen_withStack other).step_cases hs with ⟨hs', -, hu⟩ | ⟨i, s1, w, hd, he, hc, hat, rfl, hstep⟩
  · have hsp : t.sp = s.sp := hu .sp (by decide)
    have hstack : t.stack = s.stack := hu .stack (by decide)
    exact ⟨other, hs', fun j hj => hstack ▸ h j (hsp ▸ hj)⟩
  · obtain ⟨left, he', hagree⟩ := exec_withStack (s := s.latch w) h he hc hd
    exact ⟨left, hstep _ he' (hc.runState_eq.trans hat.1), hagree⟩

/-! A change that leaves the stack alone too passes through call and return. -/

/-- An unseen change that also commutes with the two operations on the stack. -/
structure UnseenByStack (f : State → State) : Prop extends Unseen f where
  popToPc? (s) : (f s).popToPc? = s.popToPc?.map f
  push? (s v) : (f s).push? v = (s.push? v).map f

/-- Such a change passes through every instruction but the sound timer's and the random byte's own. -/
theorem UnseenByStack.exec {f : State → State} (hf : UnseenByStack f) {i : Instr} (hsound : ∀ x, i ≠ .setSound x)
    (hrandom : ∀ x k, i ≠ .randomAnd x k) {s t : State} (h : exec i s = .next t) : Machine.exec i (f s) = .next (f t) := by
  cases i with
  | setSound x => exact absurd rfl (hsound x)
  | randomAnd x k => exact absurd rfl (hrandom x k)
  | ret z =>
    rcases exec_ret_cases h with hpop | ⟨hsp, rfl⟩
    · simp only [Machine.exec, execRet, hf.popToPc?, hpop, Option.map_some]
    · rw [exec_ret_of_zero z (by rwa [hf.sp]), hf.raise]
  | call a =>
    rcases exec_call_cases h with ⟨u, hpush, rfl⟩ | ⟨hsp, rfl⟩
    · simp only [Machine.exec, execCall, hf.pc, hf.push?, hpush, Option.map_some, hf.setPc]
    · rw [exec_call_of_full a (by rwa [hf.sp]), hf.raise]
  | _ => exact hf.toUnseen.exec id h

/-! The sound timer (R28). -/

/-- The state with another sound timer. -/
def withSt (v : Byte) (s : State) : State := { s with st := v }

theorem unseenByStack_withSt (v : Byte) : UnseenByStack (withSt v) where
  toUnseen := by constructor <;> intros <;> rfl
  popToPc? s := by by_cases h : 0 < s.sp.val <;> simp [State.popToPc?, withSt, h]
  push? s w := by by_cases h : s.sp.val < 16 <;> simp [State.push?, withSt, h]

/-- An instruction does the same with another sound timer; set-sound overwrites it. -/
theorem exec_withSt {i : Instr} {s t : State} (v : Byte) (he : exec i s = .next t) :
    ∃ v', exec i (withSt v s) = .next (withSt v' t) := by
  cases i with
  | setSound x => injection he with he; subst he; exact ⟨s.reg x, rfl⟩
  | randomAnd x k => injection he with he; subst he; exact ⟨v, rfl⟩
  | _ => exact ⟨v, (unseenByStack_withSt v).exec (by simp) (by simp) he⟩

/-- Settles O44: the tick counts down whatever the sound timer holds. -/
theorem soundTimerIsUnobservable : Obligations.SoundTimerIsUnobservable := by
  unfold Obligations.SoundTimerIsUnobservable
  intro s t v hs
  rcases (unseenByStack_withSt v).step_cases hs with ⟨hs', -, -⟩ | ⟨i, s1, w, -, he, hc, hat, rfl, hstep⟩
  · exact ⟨v, hs'⟩
  · obtain ⟨v', he'⟩ := exec_withSt v he
    exact ⟨countDown v', hstep _ he' (hc.runState_eq.trans hat.1)⟩

/-! The random byte (R33). -/

theorem unseenByStack_supplyRnd (r : Byte) : UnseenByStack (supplyRnd r) where
  toUnseen := by constructor <;> intros <;> rfl
  popToPc? s := by by_cases h : 0 < s.sp.val <;> simp [State.popToPc?, supplyRnd, h]
  push? s w := by by_cases h : s.sp.val < 16 <;> simp [State.push?, supplyRnd, h]

/-- An instruction other than random-and does the same whatever byte is supplied. -/
theorem exec_supplyRnd {i : Instr} {s t : State} (r : Byte) (hi : ∀ x kk, i ≠ .randomAnd x kk) (he : exec i s = .next t) :
    exec i (supplyRnd r s) = .next (supplyRnd r t) := by
  cases i with
  | setSound x => injection he with he; subst he; rfl
  | _ => exact (unseenByStack_supplyRnd r).exec (by simp) hi he

/-- Settles O45: the completed step drops the supplied byte, so the two runs meet. -/
theorem randomByteReachesOnlyRandomAnd : Obligations.RandomByteReachesOnlyRandomAnd := by
  unfold Obligations.RandomByteReachesOnlyRandomAnd
  intro s t i r h hi hs ht
  rcases (unseenByStack_supplyRnd r).step_cases hs with ⟨-, hf, -⟩ | ⟨i', s1, w, -, he, hc, hat, rfl, hstep⟩
  · simp [hf] at ht
  · obtain ⟨hr, -, -, hi'⟩ := hat
    obtain ⟨-, -, -, hdecode⟩ := h
    obtain rfl : i = i' := hdecode.symm.trans hi'
    exact hstep (supplyRnd r s1) (exec_supplyRnd r hi he) (hc.runState_eq.trans hr)

end Sys2Proof.Machine
end

section
/-! PROOF. The invariant (10_state.md R35), at every `WAITKEY_LAST`, and the states a host can reach (70_reset_and_hazards.md R215). -/

namespace Sys2Proof.Machine

/-! The parameter `WAITKEY_LAST` (00_scope.md R6). -/

/-- Only wait-key depends on the parameter. -/
theorem execWith_cases (last : KeyNum) (i : Instr) : (∃ x, i = .waitKey x) ∨ ∀ s, execWith last i s = exec i s := by
  by_cases h : ∃ x, i = .waitKey x
  · exact .inl h
  · exact .inr fun s => execWith_of_ne last s fun x hx => h ⟨x, hx⟩

theorem execWith_default (i : Instr) (s : State) : execWith Config.waitKeyLast i s = exec i s := by
  rcases execWith_cases Config.waitKeyLast i with ⟨x, rfl⟩ | h
  · rfl
  · exact h s

theorem stepWith_default (s : State) : stepWith Config.waitKeyLast s = step s := cycleBy_congr (execWith_default _ _)

theorem execWith_answers (last : KeyNum) (i : Instr) (s : State) : ∃ t, execWith last i s = .next t := by
  rcases execWith_cases last i with ⟨x, rfl⟩ | h
  · rw [execWith_waitKey, waitKeyUpTo]
    split <;> exact ⟨_, rfl⟩
  · rw [h]
    exact exec_answers i s

theorem cycleBy_of_faulted {execute : Instr → State → Result} {s : State} (hr : s.runState = .faulted) :
    cycleBy execute s = .next s := by simp only [cycleBy, hr]

theorem cycleBy_of_bad_pc {execute : Instr → State → Result} {s : State} (hr : s.runState = .running) (hf : s.fetchable = false) :
    cycleBy execute s = .next (s.raise .invalidProgramCounter) := by simp [cycleBy, hr, hf]

theorem stepWith_answers (last : KeyNum) (s : State) : ∃ t, stepWith last s = .next t := by
  cases hr : s.runState with
  | faulted => exact ⟨_, cycleBy_of_faulted hr⟩
  | running =>
    cases hf : s.fetchable with
    | false => exact ⟨_, cycleBy_of_bad_pc hr hf⟩
    | true =>
      obtain ⟨s1, h1⟩ := execWith_answers last (decode s.fetchWord) (s.latch s.fetchWord)
      exact ⟨_, cycleBy_of_exec hr hf h1⟩

/-- Settles O55: the parameter reaches the execution of wait-key only, and a machine that executes nothing does not reach it. -/
theorem parameterReachesOnlyWaitKey : Obligations.ParameterReachesOnlyWaitKey := by
  unfold Obligations.ParameterReachesOnlyWaitKey
  refine fun last s => ⟨fun h => ?_, stepWith_default s⟩
  cases hr : s.runState with
  | faulted => exact (cycleBy_of_faulted hr).trans (step_of_faulted hr).symm
  | running =>
    cases hf : s.fetchable with
    | false => exact (cycleBy_of_bad_pc hr hf).trans (step_of_bad_pc hr hf).symm
    | true =>
      have hat := aboutToExecute_of_fetchable hr hf
      exact cycleBy_congr (execWith_of_ne last _ fun x hx => h x (hx ▸ hat))

/-! The invariant through the updates of the state. -/

/-- The invariant speaks of six items of the state. -/
theorem Inv.congr {s t : State} (h : Inv s) (hmem : t.mem = s.mem) (hrun : t.runState = s.runState)
    (hreason : t.faultReason = s.faultReason) (hpc : t.pc = s.pc) (hstack : t.stack = s.stack) (hsp : t.sp = s.sp) : Inv t where
  memCanonical := hmem ▸ h.memCanonical
  reasonIffFaulted := by rw [hrun, hreason]; exact h.reasonIffFaulted
  pcBound := hpc ▸ h.pcBound
  returnAddresses := by rw [hstack, hsp]; exact h.returnAddresses

theorem Inv.setPc {s : State} (h : Inv s) {v : Word} (hv : v.toNat ≤ 0x10FE) : Inv (s.setPc v) :=
  ⟨h.memCanonical, h.reasonIffFaulted, hv, h.returnAddresses⟩

theorem Inv.setMem {s : State} (h : Inv s) {m : Memory} (hm : m.wf = true) : Inv (s.setMem m) :=
  ⟨hm, h.reasonIffFaulted, h.pcBound, h.returnAddresses⟩

theorem Inv.raise {s : State} (h : Inv s) {r : FaultReason} (hr : r ≠ .noFault) : Inv (s.raise r) :=
  ⟨h.memCanonical, by simp [hr], h.pcBound, h.returnAddresses⟩

/-- The end of a step takes the start or the instruction's own state, both of which meet the invariant. -/
theorem Inv.endStep {s s1 : State} (h : Inv s) (h1 : Inv s1) : Inv (endStep s s1) := by
  cases hr : s1.runState with
  | running =>
    rw [endStep_of_running s hr]
    exact h1.congr rfl rfl rfl rfl rfl rfl
  | faulted =>
    rw [endStep_eq, if_pos hr]
    refine h.raise fun hn => ?_
    simp [h1.reasonIffFaulted.2 hn] at hr

/-! The invariant through an instruction. -/

/-- A return address as R35 (f) has it: the address after a call at an acceptable `pc`. -/
def IsReturnAddress (v : Word) : Prop := 2 ≤ v.toNat ∧ v.toNat ≤ 4096 ∧ v.toNat % 2 = 0

/-- What holds when an instruction begins to execute: the invariant, and the advanced `pc` is a return address. -/
structure Executing (s : State) : Prop where
  inv : Inv s
  pc : IsReturnAddress s.pc

theorem executing_latch {s : State} (h : Inv s) (hf : s.fetchable = true) (w : Word) : Executing (s.latch w) := by
  obtain ⟨hle, heven⟩ := (fetchable_iff s).1 hf
  have hadv : (s.pc + 2).toNat = s.pc.toNat + 2 := by bv_omega
  have hpc : IsReturnAddress (s.pc + 2) := by
    rw [IsReturnAddress, hadv]
    omega
  exact ⟨(h.setPc (hpc.2.1.trans (by decide))).congr rfl rfl rfl rfl rfl rfl, hpc⟩

/-- Every target is at most 0x10FE: the largest is that of jump-offset, 255 + 4095 (R35 (e)). -/
theorem PcTarget.le {i : Instr} {s : State} {v : Word} (h : Executing s) (hv : PcTarget i s v) : v.toNat ≤ 0x10FE := by
  obtain ⟨hlo, hhi, -⟩ := h.pc
  cases i with
  | jump a | call a =>
    have hv : v.toNat = a.toNat := (congrArg BitVec.toNat hv).trans (address_toNat a)
    omega
  | jumpOffset a =>
    have hv : v.toNat = (s.reg 0).toNat + a.toNat := (congrArg BitVec.toNat hv).trans (jumpOffset_target_toNat _ a)
    omega
  | ret z =>
    obtain ⟨k, hk, rfl⟩ := hv
    obtain ⟨-, hk', -⟩ := h.inv.returnAddresses k (by omega)
    omega
  | skipEqImm | skipNeImm | skipEqReg | skipNeReg | skipIfKey | skipIfNotKey =>
    have hv : v = s.pc ∨ v = s.pc + 2 := hv
    bv_omega
  | waitKey x =>
    have hv : v = s.pc - 2 ∨ v = s.pc := hv
    bv_omega
  | _ =>
    have hv : v = s.pc := hv
    bv_omega

theorem faultReason_notMem_writtenBy (i : Instr) : Component.faultReason ∉ writtenBy i := by cases i <;> simp [writtenBy]

/-- The addresses held after an instruction: a call pushes the advanced `pc`, a return drops the last, no other touches them. -/
theorem exec_returnAddresses {i : Instr} {s t : State} (h : Executing s) (he : exec i s = .next t) (hc : Completed i s t)
    (hd : faultDue i s = .noFault) : ∀ k : Fin 16, k.val < t.sp.val → IsReturnAddress t.stack[k] := by
  have held : ∀ k : Fin 16, k.val < s.sp.val → IsReturnAddress s.stack[k] := h.inv.returnAddresses
  cases i with
  | ret z =>
    have hsp := sp_pos_of_ret hd
    rw [exec_ret_of_pos z hsp] at he
    injection he with he
    subst he
    exact fun k hk => held k (Nat.lt_of_lt_of_le hk (Nat.sub_le _ _))
  | call a =>
    have hsp := sp_lt_of_call hd
    rw [exec_call_of_lt a hsp] at he
    injection he with he
    subst he
    intro k hk
    simp only [Fin.getElem_fin, Vector.getElem_set]
    split
    · exact h.pc
    · exact held k (by have : k.val < s.sp.val + 1 := hk; omega)
  | _ =>
    have hsp : t.sp = s.sp := hc.1 .sp (by simp [writtenBy])
    have hstack : t.stack = s.stack := hc.1 .stack (by simp [writtenBy])
    rwa [hsp, hstack]

theorem exec_keeps_inv {i : Instr} {s t : State} (h : Executing s) (he : exec i s = .next t) : Inv t := by
  rcases exec_cases he with ⟨hd, rfl⟩ | ⟨hd, hc⟩
  · exact h.inv.raise hd
  · have hreason : t.faultReason = s.faultReason := hc.1 .faultReason (faultReason_notMem_writtenBy i)
    exact {
      memCanonical := exec_keeps_wf he h.inv.memCanonical
      reasonIffFaulted := by rw [hc.runState_eq, hreason]; exact h.inv.reasonIffFaulted
      pcBound := (exec_pc he hc hd).le h
      returnAddresses := exec_returnAddresses h he hc hd }

theorem execWith_keeps_inv {last : KeyNum} {i : Instr} {s t : State} (h : Executing s) (he : execWith last i s = .next t) : Inv t := by
  rcases execWith_cases last i with ⟨x, rfl⟩ | hi
  · obtain ⟨hlo, hhi, -⟩ := h.pc
    rcases waitKeyUpTo_cases he with ⟨k, -, -, -, rfl⟩ | ⟨-, rfl⟩
    · exact h.inv.congr rfl rfl rfl rfl rfl rfl
    · exact h.inv.setPc (by bv_omega)
  · exact exec_keeps_inv h (hi s ▸ he)

/-- A step over any way to execute that keeps the invariant keeps it. -/
theorem cycleBy_keeps_inv {execute : Instr → State → Result} (hexec : ∀ {i s t}, Executing s → execute i s = .next t → Inv t)
    {s t : State} (h : Inv s) (hs : cycleBy execute s = .next t) : Inv t := by
  rcases cycleBy_cases hs with ⟨-, rfl⟩ | ⟨-, -, rfl⟩ | ⟨-, hf, s1, he, rfl⟩
  · exact h
  · exact h.raise (by decide)
  · exact h.endStep (hexec (executing_latch h hf _) he)

theorem step_keeps_inv {s t : State} (h : Inv s) (hs : step s = .next t) : Inv t := cycleBy_keeps_inv exec_keeps_inv h hs

/-- Settles O47. -/
theorem stepKeepsTheInvariant : Obligations.StepKeepsTheInvariant := by
  unfold Obligations.StepKeepsTheInvariant
  exact fun _ _ => step_keeps_inv

/-- Settles O56. -/
theorem stepKeepsTheInvariantAtEveryParameter : Obligations.StepKeepsTheInvariantAtEveryParameter := by
  unfold Obligations.StepKeepsTheInvariantAtEveryParameter
  intro last s h
  obtain ⟨t, ht⟩ := stepWith_answers last s
  exact ⟨t, ht, cycleBy_keeps_inv execWith_keeps_inv h ht⟩

/-! Reset, and the states a host can reach. -/

theorem inv_reset : Inv State.reset where
  memCanonical := Memory.wf_nil
  reasonIffFaulted := by simp [State.reset]
  pcBound := by decide
  returnAddresses := fun i hi => absurd hi (Nat.not_lt_zero _)

/-- Settles O46. -/
theorem resetMeetsTheInvariant : Obligations.ResetMeetsTheInvariant := by
  unfold Obligations.ResetMeetsTheInvariant
  exact inv_reset

/-- A load that is not refused is a run of stores below the end of memory (R212). -/
theorem loadAt_eq_ok {base : Word} {image : List Byte} {s t : State} (h : loadAt base image s = .ok t) :
    base.toNat + image.length ≤ 4096 ∧ t = s.setMem (s.mem.writeBytes base.toNat image) := by
  unfold loadAt at h
  split at h
  · cases h
  · exact ⟨by omega, by injection h with h; exact h.symm⟩

theorem Reachable.inv {s : State} (h : Reachable s) : Inv s := by
  induction h with
  | reset => exact inv_reset
  | loaded image t h =>
    obtain ⟨hfit, rfl⟩ := loadAt_eq_ok h
    exact inv_reset.setMem (Memory.writeBytes_wf inv_reset.memCanonical hfit)
  | keys k s _ ih => exact ih.congr (by simp) (by simp) (by simp) (by simp) (by simp) (by simp)
  | rnd r s _ ih => exact ih.congr rfl rfl rfl rfl rfl rfl
  | stepped s t _ hs ih => exact step_keeps_inv ih hs

/-- Settles O48, by induction on how the host reached the state. -/
theorem reachableStatesMeetTheInvariant : Obligations.ReachableStatesMeetTheInvariant := by
  unfold Obligations.ReachableStatesMeetTheInvariant
  exact fun s h => ⟨h.inv, step_answers s⟩

end Sys2Proof.Machine
end

section
/-! PROOF. Reset, load, the placed word and the run into zeroed memory (70_reset_and_hazards.md R210 to R213; 30_encoding.md R79). -/

namespace Sys2Proof.Machine

/-! Reset. -/

/-- The glyph table ends at 0x9F, so outside 0x050..0x09F an unlisted address reads 0 (R22, R36). -/
theorem unlisted_outside_glyphs {a : Nat} (h : a < 0x50 ∨ 0x9F < a) : Memory.unlisted a = 0 := by
  unfold Memory.unlisted
  split
  · rename_i hbase
    have hbase : 0x50 ≤ a := hbase
    exact List.getD_eq_default _ _ (by show 80 ≤ a - 0x50; omega)
  · rfl

theorem unlisted_eq (a : Nat) : Memory.unlisted a = if 0x50 ≤ a ∧ a ≤ 0x9F then Config.glyphs.getD (a - 0x50) 0 else 0 := by
  split
  · rename_i h
    exact if_pos h.1
  · exact unlisted_outside_glyphs (by omega)

/-- Settles O49: the memory is the empty list, and the other items are read off the record. -/
theorem resetStateIsAsListed : Obligations.ResetStateIsAsListed := by
  unfold Obligations.ResetStateIsAsListed
  refine fun s => ⟨rfl, fun a _ => unlisted_eq a, fun q => Vector.getElem_replicate _, rfl, rfl, fun j => Vector.getElem_replicate _,
    rfl, rfl, rfl, cell_blank, fun k => Vector.getElem_replicate _, rfl, rfl, rfl⟩

theorem resetWith_mem_wf (p : Config.Parameters) : (Memory.writeBytes [] 0x50 p.glyphs.toList).wf = true :=
  Memory.writeBytes_wf Memory.wf_nil (by simp)

/-- Settles O57: the glyph bytes are one run of stores into the memory after reset, which at the defaults changes no byte. -/
theorem resetAtEveryParameter : Obligations.ResetAtEveryParameter := by
  unfold Obligations.ResetAtEveryParameter
  refine ⟨fun p hbase => ⟨fun j => ?_, fun a ha => ?_, rfl, ?_, ?_⟩, rfl⟩
  · exact (Memory.read_writeBytes_inside [] 0x50 j.val p.glyphs.toList Memory.wf_nil (by simp) (by simp)).trans (by simp)
  · exact (Memory.read_writeBytes_outside [] 0x50 a p.glyphs.toList (by simp; omega)).trans (unlisted_outside_glyphs ha)
  · exact ((unchanged_setMem State.reset _).mono (by simp)).trans ((unchanged_setPc _ p.loadBase).mono (by simp))
  · simp only [Config.loadBaseOk, Bool.and_eq_true, decide_eq_true_eq] at hbase
    exact (inv_reset.setMem (resetWith_mem_wf p)).setPc (by omega)

/-! Load. -/

theorem loadAt_of_fits {base : Word} {image : List Byte} (s : State) (h : base.toNat + image.length ≤ 4096) :
    loadAt base image s = .ok (s.setMem (s.mem.writeBytes base.toNat image)) := if_neg (by omega)

theorem loadAt_of_too_long {base : Word} {image : List Byte} (s : State) (h : 4096 < base.toNat + image.length) :
    loadAt base image s = .error .doesNotFit := if_pos h

theorem loadBase_toNat : Config.loadBase.toNat = 0x200 := rfl

/-- Settles O50: 3584 bytes reach from the load base to the end of memory. -/
theorem loadCopiesTheImageOrRefuses : Obligations.LoadCopiesTheImageOrRefuses := by
  unfold Obligations.LoadCopiesTheImageOrRefuses
  refine fun image s hw => ⟨fun h => ⟨_, loadAt_of_fits s (by rw [loadBase_toNat]; omega), fun j hj => ?_, fun a ha => ?_,
    unchanged_setMem s _⟩, fun h => loadAt_of_too_long s (by rw [loadBase_toNat]; omega)⟩
  · exact Memory.read_writeBytes_inside s.mem 0x200 j image hw (by omega) hj
  · exact Memory.read_writeBytes_outside s.mem 0x200 a image (by omega)

/-! The placed word (assumption log 7, 8). -/

theorem readyToFetch_runState (s : State) : s.readyToFetch.runState = .running := by
  unfold State.readyToFetch
  dsimp only
  split
  · assumption
  · rfl

theorem readyToFetch_mem (s : State) : s.readyToFetch.mem = s.mem := by
  unfold State.readyToFetch
  cases s.fetchable <;> cases h : s.runState <;> simp [h]

theorem fetchable_of_pc_loadBase {s : State} (h : s.pc = Config.loadBase) : s.fetchable = true := by
  rw [State.fetchable, h]
  decide

theorem readyToFetch_fetchable (s : State) : s.readyToFetch.fetchable = true := by
  unfold State.readyToFetch
  cases hf : s.fetchable <;> cases hr : s.runState <;> simp [hr]
  · exact fetchable_of_pc_loadBase rfl
  · exact fetchable_of_pc_loadBase rfl
  · exact hf
  · exact hf

theorem readyToFetch_of_ready {s : State} (hr : s.runState = .running) (hf : s.fetchable = true) : s.readyToFetch = s := by
  simp [State.readyToFetch, hr, hf]

/-- The checker's word number is the word itself. -/
theorem withFetchWord_eq (s : State) (w : Word) :
    s.withFetchWord 16 w.toNat = s.readyToFetch.setMem (s.mem.writeBytes s.readyToFetch.pc.toNat [highByte w, lowByte w]) := by
  have e : BitVec.ofNat 16 (w.toNat % 2 ^ 16) = w := by
    rw [Nat.mod_eq_of_lt w.isLt, BitVec.ofNat_toNat, BitVec.setWidth_eq]
  rw [State.withFetchWord, e, State.placeWord, readyToFetch_mem]

/-- The two bytes stored at an acceptable `pc` are the word fetched there. -/
theorem fetchWord_withFetchWord {s : State} (hw : s.mem.wf = true) (w : Word) : (s.withFetchWord 16 w.toNat).fetchWord = w := by
  obtain ⟨hle, -⟩ := (fetchable_iff _).1 (readyToFetch_fetchable s)
  have hread := fun j hj => Memory.read_writeBytes_inside s.mem s.readyToFetch.pc.toNat j [highByte w, lowByte w] hw
    (by simp; omega) hj
  rw [withFetchWord_eq]
  exact (congrArg₂ bigEndian (hread 0 (by simp)) (hread 1 (by simp))).trans (bigEndian_bytes w)

/-- Settles O52. -/
theorem placedWordIsFetched : Obligations.PlacedWordIsFetched := by
  unfold Obligations.PlacedWordIsFetched
  intro s w hw
  have hfetch := fetchWord_withFetchWord hw w
  obtain ⟨hle, heven⟩ := (fetchable_iff _).1 (readyToFetch_fetchable s)
  refine ⟨⟨?_, ?_, ?_, congrArg decode hfetch⟩, hfetch, fun hr hle' heven' => ?_⟩
  · rw [withFetchWord_eq]; exact readyToFetch_runState s
  · rw [withFetchWord_eq]; exact hle
  · rw [withFetchWord_eq]; exact heven
  · rw [withFetchWord_eq, readyToFetch_of_ready hr ((fetchable_iff s).2 ⟨hle', heven'⟩)]
    exact ⟨unchanged_setMem s _, fun a h0 h1 => Memory.read_writeBytes_outside s.mem _ a _ (by simp; omega)⟩

/-! The run into zeroed memory (R79). -/

/-- A running machine at an acceptable `pc` over two zero bytes stands at a clear-display. -/
theorem aboutToExecute_zero {s : State} (hr : s.runState = .running) (hle : s.pc.toNat ≤ 4094) (heven : s.pc.toNat % 2 = 0)
    (h0 : ∀ a, s.pc.toNat ≤ a → a ≤ 0xFFF → s.mem.read a = 0) : AboutToExecute s (.clearDisplay 0) := by
  refine ⟨hr, hle, heven, ?_⟩
  rw [State.fetchWord, h0 _ (Nat.le_refl _) (by omega), h0 _ (Nat.le_succ _) (by omega)]
  decide

/-- The state after a step that clears the display. -/
def afterClear (s : State) : State := ((s.latch s.fetchWord).setFb Framebuffer.blank).tick.nextRnd

theorem step_clearing {s : State} {z : BitVec 8} (h : AboutToExecute s (.clearDisplay z)) : step s = .next (afterClear s) :=
  step_of_completed h (exec_clearDisplay z _) h.1

theorem afterClear_pc (s : State) : (afterClear s).pc = s.pc + 2 := rfl
theorem afterClear_runState (s : State) : (afterClear s).runState = s.runState := rfl
theorem afterClear_mem (s : State) : (afterClear s).mem = s.mem := rfl
theorem afterClear_fb (s : State) : (afterClear s).fb = Framebuffer.blank := rfl

theorem unchanged_afterClear (s : State) : UnchangedExcept [.ir, .pc, .dt, .st, .fb, .rndIn, .draws] s (afterClear s) := by
  intro c hc; cases c <;> simp_all [Component.same, afterClear]

/-- A turn over zeroed memory clears the display and moves `pc` two on. -/
theorem turn_clearing {k : BitVec 16} {r : Byte} {s : State} {z : BitVec 8} (h : AboutToExecute s (.clearDisplay z)) :
    ∃ t, turn k r s = .next t ∧ t.runState = s.runState ∧ t.pc = s.pc + 2 ∧ t.mem = s.mem ∧ t.fb = Framebuffer.blank ∧
      UnchangedExcept [.ir, .pc, .dt, .st, .fb, .key, .rndIn, .draws] s t := by
  refine ⟨_, step_clearing (h.host_inputs k r), ?_, ?_, ?_, afterClear_fb _,
    ((unchanged_host_inputs k r s).mono (by simp)).trans ((unchanged_afterClear _).mono (by simp))⟩
  · rw [afterClear_runState, supplyRnd_runState, setKeys_runState]
  · rw [afterClear_pc, supplyRnd_pc, setKeys_pc]
  · rw [afterClear_mem, supplyRnd_mem, setKeys_mem]

/-- A turn past the last word faults (R182). -/
theorem turn_past_memory (k : BitVec 16) (r : Byte) {s : State} (hr : s.runState = .running) (hpc : 4094 < s.pc.toNat) :
    ∃ u, turn k r s = .next u ∧ u.runState = .faulted ∧ u.faultReason = .invalidProgramCounter :=
  ⟨_, step_of_bad_pc (by simpa using hr) ((fetchable_eq_false_iff _).2 (.inl (by simpa using hpc))), rfl, rfl⟩

/-- Settles O53, by induction on the turns: each moves `pc` two on, up to 4096. -/
theorem zeroedMemoryClearsThenFaults : Obligations.ZeroedMemoryClearsThenFaults := by
  unfold Obligations.ZeroedMemoryClearsThenFaults
  intro turns k r
  induction turns with
  | nil =>
    intro s hr hpc _
    have hpc : s.pc.toNat = 4096 := hpc
    obtain ⟨u, hu⟩ := turn_past_memory k r hr (by omega)
    exact ⟨s, u, rfl, hr, hpc, .rfl_of _ s, fun hne => absurd rfl hne, hu⟩
  | cons kr rest ih =>
    obtain ⟨k1, r1⟩ := kr
    intro s hr hpc h0
    rw [List.length_cons] at hpc
    obtain ⟨s1, hturn, hr1, hpc1, hmem1, hfb1, hu1⟩ := turn_clearing (k := k1) (r := r1) (aboutToExecute_zero hr (by omega) (by omega) h0)
    have hpc1 : s1.pc.toNat = s.pc.toNat + 2 := by rw [hpc1]; bv_omega
    obtain ⟨t, u, hrun, ht, hpct, hut, hfbt, hu⟩ := ih s1 (hr1.trans hr) (by omega)
      fun a ha hle => by rw [hmem1]; exact h0 a (by omega) hle
    refine ⟨t, u, (runTurns_cons hturn).trans hrun, ht, hpct, hu1.trans hut, fun _ i c => ?_, hu⟩
    cases rest with
    | nil =>
      injection hrun with hrun
      rw [← hrun, hfb1]
      exact cell_blank i c
    | cons kr rest => exact hfbt (List.cons_ne_nil kr rest) i c

end Sys2Proof.Machine
end
